-- ==== Sys2Proof/Word.lean ====
section
/-! DEFINITION. The word types of the CORE's ports (rules R46, R60 to R64 of spec/20_memory.md and spec/30_encoding.md).
There are no addresses and no memory words: the CORE has no address space (R40). -/

namespace Sys2Proof

/-- A binary32 word, as it stands on `dec_y`, `enc_a`, `req_a` and `rsp_y` (R31, R60, R61, R63). -/
abbrev Word := BitVec 32

/-- An e4m3fn code, as it stands on `dec_a` and `enc_y` (R26, R60, R61). -/
abbrev Code := BitVec 8

/-- A magnitude code `b[6:0]`: a code without its sign bit (glossary of spec/00_scope.md; `rnd_c` of R62). -/
abbrev MagCode := BitVec 7

/-- A magnitude word `w[30:0]`: a binary32 word without its sign bit (`rnd_mag` of R62). -/
abbrev MagWord := BitVec 31

/-- A 33-bit command word `{req_op, req_a}` (R64). -/
abbrev Cmd := BitVec 33

end Sys2Proof
end

