-- ==== Sys2Proof/Config.lean ====
section
/-! DEFINITION. The five static parameters of the CORE (R8 to R12), one configuration as a record, its default (R4),
and the free values the spec leaves open (R25, R230; entry I6 of spec/93_implementation_defined.md). -/

namespace Sys2Proof

/-- `OVF_MODE` (R8): what ENCODE does with a finite input whose magnitude is too large. -/
inductive OvfMode where
  /-- `NAN`: the NaN code when the correctly rounded magnitude would exceed 448. -/
  | nan
  /-- `SAT`: the largest finite magnitude, 448, with the input's sign. -/
  | sat
  /-- `NAN_STRICT`: the NaN code for any magnitude above 448, before rounding. -/
  | nanStrict
  deriving DecidableEq, Repr

/-- `INF_MODE` (R9): what ENCODE does with an infinity. -/
inductive InfMode where
  /-- `NAN`: the NaN code. -/
  | nan
  /-- `SAT`: magnitude 448 with the input's sign. -/
  | sat
  deriving DecidableEq, Repr

/-- `ENC_NAN_SIGN` (R10): the sign bit of every NaN code ENCODE produces. -/
inductive NanSign where
  /-- `COPY`: bit 7 of the result is bit 31 of the input. -/
  | copy
  /-- `POSITIVE`: bit 7 is 0. -/
  | positive
  deriving DecidableEq, Repr

/-- One configuration of the CORE (R4, R24). `DEC_NAN` is a function of one bit (R11), so it is held as its two
words: plain data. `LATENCY` is a natural number (R12), so a negative one cannot be written down. -/
structure Config where
  /-- `OVF_MODE` (R8). -/
  ovfMode : OvfMode
  /-- `INF_MODE` (R9). -/
  infMode : InfMode
  /-- `ENC_NAN_SIGN` (R10). -/
  encNanSign : NanSign
  /-- `DEC_NAN(0)` (R11). -/
  decNanPos : Word
  /-- `DEC_NAN(1)` (R11). -/
  decNanNeg : Word
  /-- `LATENCY` (R12). -/
  latency : Nat
  deriving DecidableEq, Repr

/-- The default configuration `e4m3fn-cvt-v7/OVF=NAN/INF=NAN/NANSIGN=COPY/DECNAN=0x7FF00000/LAT=0` (R4, R8 to R12). -/
def Config.default : Config where
  ovfMode := .nan
  infMode := .nan
  encNanSign := .copy
  decNanPos := 0x7FF00000#32
  decNanNeg := 0xFFF00000#32
  latency := 0

/-- FREE VALUE (log entry 4): the word in data register `d[k]` after the `draw`-th event that leaves the data registers
unspecified (R25, R230; entry I6). Nothing constrains it. -/
opaque Config.freeData (draw k : Nat) : Word

/-- FREE VALUE (log entry 5): the valid bit `v[k]` after a power-up, before the first reset edge (R230; P4 of
spec/95_test_vectors.md, "pipeline registers unknown before edge 0"). Nothing constrains it. -/
opaque Config.freeValid (draw k : Nat) : Bool

end Sys2Proof
end

