-- ==== Sys2Proof/Machine/Bits.lean ====
section
/-! DEFINITION. The bit-field notation of rules R14 and R15: slices, bits and concatenations of unbounded naturals, and
`msb_index`. -/

namespace Sys2Proof.Machine

/-- `v[i]`: bit i of v (R14). -/
def natBit (v i : Nat) : Nat := v / 2 ^ i % 2

/-- `v[hi:lo]`: bits hi down to lo of v, as an unsigned number of hi−lo+1 bits (R14). -/
def natSlice (v hi lo : Nat) : Nat := v / 2 ^ lo % 2 ^ (hi + 1 - lo)

/-- The two-part concatenation whose low part `low` has `width` bits (R14). -/
def natCat (high width low : Nat) : Nat := high * 2 ^ width + low

/-- `msb_index(m)` for m ≥ 1: the index of the highest set bit (R15). -/
def msbIndex (m : Nat) : Nat := Nat.log2 m

/-- `zext_n(v)`: v zero-extended to n bits (R15). -/
def zext (n : Nat) {w : Nat} (v : BitVec w) : BitVec n := BitVec.setWidth n v

end Sys2Proof.Machine
end

