-- ==== Sys2Proof/Machine/Formats.lean ====
section
/-! DEFINITION. The two value formats: e4m3fn (R26 to R30) and binary32 (R31 to R34). Fields, classes, and values as
exact rationals. `val8` and `val32` answer `none` where the spec leaves them undefined (NaN, and infinity for `val32`). -/

namespace Sys2Proof.Machine

/-- `s = b[7]` (R26). -/
def codeSign (b : Code) : BitVec 1 := b.extractLsb' 7 1

/-- `e = b[6:3]`, biased by 7 (R26). -/
def codeExp (b : Code) : BitVec 4 := b.extractLsb' 3 4

/-- `m = b[2:0]` (R26). -/
def codeMan (b : Code) : BitVec 3 := b.extractLsb' 0 3

/-- The magnitude code `b[6:0]`. -/
def codeMag (b : Code) : MagCode := b.extractLsb' 0 7

/-- The code `{s, c}` of a sign and a magnitude code. -/
def packCode (s : BitVec 1) (c : MagCode) : Code := s ++ c

/-- `s = w[31]` (R31). -/
def wordSign (w : Word) : BitVec 1 := w.extractLsb' 31 1

/-- `E = w[30:23]`, biased by 127 (R31). -/
def wordExp (w : Word) : BitVec 8 := w.extractLsb' 23 8

/-- `F = w[22:0]` (R31). -/
def wordFrac (w : Word) : BitVec 23 := w.extractLsb' 0 23

/-- The magnitude word `w[30:0]`. -/
def wordMag (w : Word) : MagWord := w.extractLsb' 0 31

/-- The word `{s, E, F}` (R31). -/
def packWord (s : BitVec 1) (E : BitVec 8) (F : BitVec 23) : Word := s ++ E ++ F

/-- `E = mag[30:23]` of a magnitude word (R62). -/
def magExp (m : MagWord) : BitVec 8 := m.extractLsb' 23 8

/-- `F = mag[22:0]` of a magnitude word (R62). -/
def magFrac (m : MagWord) : BitVec 23 := m.extractLsb' 0 23

/-- The classes of an e4m3fn code (R27). -/
inductive CodeClass where
  | nan
  | zero
  | subnormal
  | normal
  deriving DecidableEq, Repr

/-- The class of a code by its fields (R27). -/
def codeClass (b : Code) : CodeClass :=
  if codeExp b = 0b1111#4 ∧ codeMan b = 0b111#3 then .nan
  else if codeExp b = 0#4 then (if codeMan b = 0#3 then .zero else .subnormal)
  else .normal

/-- The classes of a binary32 word (R32). -/
inductive WordClass where
  | nan
  | infinity
  | zero
  | subnormal
  | normal
  deriving DecidableEq, Repr

/-- The class of a binary32 word by its fields (R32). -/
def wordClass (w : Word) : WordClass :=
  if wordExp w = 0xFF#8 then (if wordFrac w = 0#23 then .infinity else .nan)
  else if wordExp w = 0#8 then (if wordFrac w = 0#23 then .zero else .subnormal)
  else .normal

/-- A NaN code: magnitude pattern 0x7F with either sign (R27; conflict C5 of spec/90_conflicts.md). -/
def codeIsNaN (b : Code) : Bool := codeMag b == 0x7F#7

/-- A binary32 NaN: exponent field 255 and a nonzero fraction (R32). -/
def wordIsNaN (w : Word) : Bool := wordExp w == 0xFF#8 && wordFrac w != 0#23

/-- A binary32 infinity (R32). -/
def wordIsInf (w : Word) : Bool := wordExp w == 0xFF#8 && wordFrac w == 0#23

/-- A finite binary32 word: exponent field at most 254 (R34). -/
def wordIsFinite (w : Word) : Bool := wordExp w != 0xFF#8

/-- A quiet NaN: fraction bit 22 is 1 (R33). -/
def wordIsQuietNaN (w : Word) : Bool := wordIsNaN w && w.getLsbD 22

/-- A signalling NaN: fraction bit 22 is 0 (R33). -/
def wordIsSignallingNaN (w : Word) : Bool := wordIsNaN w && !w.getLsbD 22

/-- `(-1)^s` (R28, R32). -/
def signFactor (s : BitVec 1) : ℚ := if s = 1#1 then -1 else 1

/-- `V(c)`, the magnitude of a magnitude code (R28, R141): `m × 2^-9` where the exponent field is 0, else
`(1 + m/8) × 2^(e − 7)`. At 0x7F it is 480, the value the NaN pattern would have if it were finite (R29). -/
def magCodeValue (c : MagCode) : ℚ :=
  let e := natSlice c.toNat 6 3
  let m := natSlice c.toNat 2 0
  if e = 0 then (m : ℚ) / 2 ^ 9 else (1 + (m : ℚ) / 8) * 2 ^ e / 2 ^ 7

/-- `val8(b)` (R28): the exact value of a code, `none` on the NaN codes. -/
def val8 (b : Code) : Option ℚ :=
  if codeIsNaN b then none else some (signFactor (codeSign b) * magCodeValue (codeMag b))

/-- The magnitude of a finite magnitude word (R32): `F × 2^-149` where the exponent field is 0, else
`(2^23 + F) × 2^(E − 150)`. -/
def magWordValue (m : MagWord) : ℚ :=
  let E := (magExp m).toNat
  let F := (magFrac m).toNat
  if E = 0 then (F : ℚ) / 2 ^ 149 else (2 ^ 23 + (F : ℚ)) * 2 ^ E / 2 ^ 150

/-- `val32(w)` (R32): the exact value of a finite binary32 word, `none` on NaN and infinity. -/
def val32 (w : Word) : Option ℚ :=
  if wordIsFinite w then some (signFactor (wordSign w) * magWordValue (wordMag w)) else none

end Sys2Proof.Machine
end

