-- ==== Sys2Proof/Syntax.lean ====
section
/-! DEFINITION. The operations a command word can select: one constructor per row of spec/opcode_table.json (R64, R65).
ROUND has no command encoding (R73) and QUANT is a pseudo-instruction of the host (R75), so neither is a constructor. -/

namespace Sys2Proof

/-- One request's operation with its operand field `a = cmd[31:0]`, kept whole (R64): DECODE ignores `a[31:8]` (R66),
and keeping those bits makes an instruction and its command word the same information. -/
inductive Instr where
  /-- `DECODE` (R100): the operand `byte` is `a[7:0]`. -/
  | decode (a : Word)
  /-- `ENCODE` (R120): the operand is the whole word, fields `s`, `E`, `F`. -/
  | encode (w : Word)
  deriving DecidableEq, Repr

end Sys2Proof
end

