-- ==== Sys2Proof/WellFormed.lean ====
section
/-! DEFINITION. The checks on what is given to the CORE: a configuration must be legal (R8 to R12, R206), every request is
well formed (R47, R71), and a request has the assembler form of R74 only where that form can write its command word. -/

namespace Sys2Proof

/-- A legal configuration (R206, entry I11): both words of `DEC_NAN` are binary32 NaNs (R11). The types of the other
four parameters hold their legal values and no others (R8, R9, R10, R12). -/
def Config.legal (c : Config) : Bool :=
  Machine.wordIsNaN c.decNanPos && Machine.wordIsNaN c.decNanNeg

/-- Every request is well formed: both values of `op` are defined and every operand pattern is legal (R71, R47). -/
def Instr.wellFormed : Instr → Bool
  | .decode _ => true
  | .encode _ => true

/-- The request can be written in the assembler form of R74: `DECODE <b>` writes `req_a = zext_32(<b>)`, so a DECODE
with a bit of `req_a[31:8]` set has no such form; every ENCODE has one. -/
def Instr.writable : Instr → Bool
  | .decode a => a.extractLsb' 8 24 == 0#24
  | .encode _ => true

end Sys2Proof
end

