-- ==== Sys2Proof/Decode.lean ====
section
/-! DEFINITION. The command word (R64, R65): its decoder, total, and its encoder. All 2^33 command words select an
operation (R71); the one thing refused, by name, is a number that is not a 33-bit word. -/

namespace Sys2Proof

/-- Why a number is not a command word. -/
inductive DecodeError where
  /-- A bit above bit 32 is set: a request is one 33-bit command word and has one length (R64, R72). -/
  | bitsAboveCommandWord
  deriving DecidableEq, Repr

/-- The mask both rows of the opcode map share (R65): bit 32, the field `op`. -/
def opMask : Cmd := 0x100000000#33

/-- The match value of DECODE (R65). -/
def decodeMatch : Cmd := 0x000000000#33

/-- The match value of ENCODE (R65). -/
def encodeMatch : Cmd := 0x100000000#33

/-- The operation a command word selects (R65, R71): total. -/
def decodeCmd (cmd : Cmd) : Instr :=
  if cmd &&& opMask = decodeMatch then .decode (cmd.extractLsb' 0 32) else .encode (cmd.extractLsb' 0 32)

/-- The decoder on a number read as bits 0, 1, 2, … : a command word, or refused by name. -/
def decodeBits (w : Nat) : Except DecodeError Instr :=
  if w < 2 ^ 33 then .ok (decodeCmd (BitVec.ofNat 33 w)) else .error .bitsAboveCommandWord

/-- The instruction the decoder reads from the bits `w` (bit 0 the least significant bit of the command word, R14). The
command word has one length (R72), so the number of bits the table gives a row decides nothing; bits above it are 0. -/
def decodeTableWord (_nbits w : Nat) : Option Instr :=
  match decodeBits w with
  | .ok i => some i
  | .error _ => none

/-- `req_op` of a request (R64). -/
def Instr.op : Instr → BitVec 1
  | .decode _ => 0#1
  | .encode _ => 1#1

/-- `req_a` of a request (R64). -/
def Instr.operand : Instr → Word
  | .decode a => a
  | .encode w => w

/-- The command word `{op, a}` of a request (R64). -/
def encodeCmd (i : Instr) : Cmd := i.op ++ i.operand

end Sys2Proof
end

