-- ==== Sys2Proof/Machine/Operands.lean ====
section
/-! DEFINITION. Operand assembly and result placement on the request and response ports (R66, R67, R68, R70). -/

namespace Sys2Proof.Machine

/-- The operand of DECODE: `b = req_a[7:0]`; `req_a[31:8]` is ignored (R66). -/
def decodeOperand (a : Word) : Code := a.extractLsb' 0 8

/-- The operand of ENCODE: the whole word (R67). -/
def encodeOperand (a : Word) : Word := a

/-- `rsp_y` of a DECODE: `dec_y`, all 32 bits (R68). -/
def placeDecoded (y : Word) : Word := y

/-- `rsp_y` of an ENCODE: `zext_32(enc_y)` (R68). -/
def placeEncoded (y : Code) : Word := zext 32 y

end Sys2Proof.Machine
end

