-- ==== Sys2Proof/Machine/Decoder.lean ====
section
/-! DEFINITION. The block DEC (R60) and its one operation DECODE as a function (R100). -/

namespace Sys2Proof.Machine

/-- `DEC_NAN(s)` (R11). -/
def decNan (cfg : Config) (s : BitVec 1) : Word := if s = 0#1 then cfg.decNanPos else cfg.decNanNeg

/-- The exponent field of the result for a subnormal code: `zext_8(118 + p)` with `p = msb_index(m)` (R100). -/
def decSubExp (m : BitVec 3) : BitVec 8 := BitVec.ofNat 8 (118 + msbIndex m.toNat)

/-- The fraction of the result for a subnormal code: `zext_23((m − 2^p) << (23 − p))` (R100). -/
def decSubFrac (m : BitVec 3) : BitVec 23 :=
  BitVec.ofNat 23 ((m.toNat - 2 ^ msbIndex m.toNat) <<< (23 - msbIndex m.toNat))

/-- `dec_y` as a function of `dec_a` (R100): total on all 256 codes, with no flags, no exception and no state (R106). -/
def dec (cfg : Config) (b : Code) : Word :=
  let s := codeSign b
  let e := codeExp b
  let m := codeMan b
  if e = 0b1111#4 ∧ m = 0b111#3 then decNan cfg s
  else if e = 0#4 ∧ m = 0#3 then packWord s 0#8 0#23
  else if e = 0#4 then packWord s (decSubExp m) (decSubFrac m)
  else packWord s (BitVec.ofNat 8 (e.toNat + 120)) (m ++ 0#20)

/-- What DECODE of the operand field `a` drives on `rsp_y` (R66, R68, R69). -/
def decodeResult (cfg : Config) (a : Word) : Word := placeDecoded (dec cfg (decodeOperand a))

end Sys2Proof.Machine
end

