-- ==== Sys2Proof/Machine/Rounding.lean ====
section
/-! DEFINITION. The rounding unit RND (R62, R140): a binary32 magnitude to the nearest e4m3fn magnitude code, ties to even.
The intermediate quantities of R140 stand as definitions of their own, as unbounded naturals (R15); their widths are
R146. RND has no state and no rounding-mode input (R147). -/

namespace Sys2Proof.Machine

/-- The outputs of RND (R62). -/
structure RndOut where
  /-- `rnd_c`: the magnitude code. -/
  c : MagCode
  /-- `rnd_ovf`: the correctly rounded magnitude exceeds 448. -/
  ovf : Bool
  /-- `rnd_big`: the magnitude itself exceeds 448. -/
  big : Bool
  deriving DecidableEq, Repr

/-- `q + (G AND (S OR q[0]))`: the increment of round-to-nearest-even (R140). -/
def roundUp (q g : Nat) (sticky : Bool) : Nat :=
  q + if g = 1 ∧ (sticky = true ∨ natBit q 0 = 1) then 1 else 0

/-- `c0 = {zext_4(E − 120), F[22:20]}` of the normal arm (R140). -/
def rndC0 (E F : Nat) : Nat := natCat (E - 120) 3 (natSlice F 22 20)

/-- `G = F[19]` of the normal arm (R140). -/
def rndGuard (F : Nat) : Nat := natBit F 19

/-- `S = OR(F[18:0])` of the normal arm (R140). -/
def rndSticky (F : Nat) : Bool := natSlice F 18 0 != 0

/-- `c1` of the normal arm (R140). -/
def rndC1 (E F : Nat) : Nat := roundUp (rndC0 E F) (rndGuard F) (rndSticky F)

/-- `M`: the significand of the subnormal arm (R140). -/
def rndM (E F : Nat) : Nat := if 1 ≤ E then 2 ^ 23 + F else F

/-- `k = 141 − max(E, 1)` of the subnormal arm (R140). -/
def rndK (E : Nat) : Nat := 141 - max E 1

/-- `q = M >> k` of the subnormal arm (R140). -/
def rndQ (E F : Nat) : Nat := rndM E F >>> rndK E

/-- `G = (M >> (k − 1)) AND 1` of the subnormal arm (R140). -/
def rndSubGuard (E F : Nat) : Nat := natBit (rndM E F >>> (rndK E - 1)) 0

/-- `S = (M mod 2^(k−1)) ≠ 0` of the subnormal arm (R140). -/
def rndSubSticky (E F : Nat) : Bool := rndM E F % 2 ^ (rndK E - 1) != 0

/-- `c` of the subnormal arm (R140): 8 is the normal code 0x08. -/
def rndSubC (E F : Nat) : Nat := roundUp (rndQ E F) (rndSubGuard E F) (rndSubSticky E F)

/-- The magnitude code 0x7E, 448: the largest finite one (R29). -/
def maxMagCode : MagCode := 0x7E#7

/-- `big`: the magnitude is above 448 (R140). -/
def rndBig (mag : MagWord) : Bool := decide (0x43E00000#31 < mag)

/-- ROUND (R140): the magnitude code and the two indications to ENC. Total on all 2^31 inputs; at exponent field 255 it
gives what the arm `E ≥ 136` gives (R145). -/
def rnd (mag : MagWord) : RndOut :=
  let E := (magExp mag).toNat
  let F := (magFrac mag).toNat
  if 136 ≤ E then ⟨maxMagCode, true, rndBig mag⟩
  else if 121 ≤ E then
    if 0x7F ≤ rndC1 E F then ⟨maxMagCode, true, rndBig mag⟩
    else ⟨BitVec.ofNat 7 (rndC1 E F), false, rndBig mag⟩
  else ⟨BitVec.ofNat 7 (rndSubC E F), false, rndBig mag⟩

end Sys2Proof.Machine
end

