-- ==== Sys2Proof/Machine/Flags.lean ====
section
/-! DEFINITION. Flags: there are none (R23). The CORE has no condition codes and raises no IEEE-754 exception flags, so
there is nothing here for an instruction to write. What stands here is the one use of RND's two indications `ovf` and
`big`, which are outputs to ENC and no flags (R140). -/

namespace Sys2Proof.Machine

/-- Whether `OVF_MODE` turns this rounding into the NaN code (R8, R120): `NAN` judges after rounding (`ovf`),
`NAN_STRICT` before (`big`), `SAT` never does. -/
def overflowsToNaN (mode : OvfMode) (r : RndOut) : Bool :=
  match mode with
  | .nan => r.ovf
  | .sat => false
  | .nanStrict => r.big

end Sys2Proof.Machine
end

