-- ==== Sys2Proof/Machine/Encoder.lean ====
section
/-! DEFINITION. The block ENC (R61) and its one operation ENCODE as a function (R120). -/

namespace Sys2Proof.Machine

/-- `NAN8 = {nsign, 0b1111111}` with `nsign` by `ENC_NAN_SIGN` (R10, R120). -/
def encNan (cfg : Config) (s : BitVec 1) : Code :=
  match cfg.encNanSign with
  | .copy => packCode s 0x7F#7
  | .positive => packCode 0#1 0x7F#7

/-- `MAX8 = {s, 0b1111110}`: 448 with the sign s (R120). -/
def encMax (s : BitVec 1) : Code := packCode s maxMagCode

/-- ENCODE of an infinity of sign s, by `INF_MODE` (R9, R120). -/
def encInf (cfg : Config) (s : BitVec 1) : Code :=
  match cfg.infMode with
  | .nan => encNan cfg s
  | .sat => encMax s

/-- ENCODE of a finite word: ROUND, then the overflow policy (R120). Under `SAT` RND's `c` is already 0x7E. -/
def encFinite (cfg : Config) (w : Word) : Code :=
  let r := rnd (wordMag w)
  if overflowsToNaN cfg.ovfMode r then encNan cfg (wordSign w) else packCode (wordSign w) r.c

/-- `enc_y` as a function of `enc_a` (R120): total on all 2^32 words, with no flags, no exception and no state (R127). -/
def enc (cfg : Config) (w : Word) : Code :=
  if wordExp w = 0xFF#8 ∧ wordFrac w ≠ 0#23 then encNan cfg (wordSign w)
  else if wordExp w = 0xFF#8 then encInf cfg (wordSign w)
  else encFinite cfg w

/-- What ENCODE of the operand field `a` drives on `rsp_y` (R67, R68, R69). -/
def encodeResult (cfg : Config) (a : Word) : Word := placeEncoded (enc cfg (encodeOperand a))

end Sys2Proof.Machine
end

