-- ==== Sys2Proof/Machine/Pipeline.lean ====
section
/-! DEFINITION. The pipeline registers, present only when `LATENCY` ≥ 1 (R25): one stage, and the stages as they stand
after a reset edge and after a power-up (R35, R230). -/

namespace Sys2Proof.Machine

/-- One pipeline stage k: the valid bit `v[k]` and the 32-bit data register `d[k]` (R25). -/
structure Stage where
  /-- `v[k]`. -/
  valid : Bool
  /-- `d[k]`. -/
  data : Word
  deriving DecidableEq, Repr

/-- The stages 1 to `latency` after a reset edge: every valid bit 0, every data register unspecified, so a free value
(R35, R230; log entry 4). -/
def clearedStages (latency draw : Nat) : List Stage :=
  (List.range latency).map fun k => { valid := false, data := Config.freeData draw (k + 1) }

/-- The stages 1 to `latency` after a power-up, before the first reset edge: valid bits and data registers unspecified,
so free values (R230; log entry 5). -/
def powerUpStages (latency draw : Nat) : List Stage :=
  (List.range latency).map fun k => { valid := Config.freeValid draw (k + 1), data := Config.freeData draw (k + 1) }

end Sys2Proof.Machine
end

