-- ==== Sys2Proof/Machine/State.lean ====
section
/-! DEFINITION. The state. The CORE's own state is the pipeline registers and nothing else (R20, R25, R35): it has no
registers (R21), no program counter (R22), no flags (R23), no control registers (R24) and no memory (R40). Around them
stand the configuration, which never changes (R24), the two ports (R63), and what the host is about to present. -/

namespace Sys2Proof.Machine

/-- The levels the host drives during one cycle (R63), and whether it reads `rsp_y` in that cycle (R206, R234). -/
structure PortIn where
  /-- `rst`, present only when `LATENCY` ≥ 1: ignored otherwise (R63, R230). -/
  rst : Bool
  /-- `req_valid`. -/
  reqValid : Bool
  /-- `req_op`. -/
  reqOp : BitVec 1
  /-- `req_a`. -/
  reqA : Word
  /-- The host reads `rsp_y` in this cycle. No pin of the CORE: the event that R206 and R234 speak of. -/
  readY : Bool
  deriving DecidableEq, Repr

/-- What the response port shows during one cycle (R63): `y` is `none` in a cycle in which the spec gives `rsp_y` no
value (R206; the dashes of P4). -/
structure PortOut where
  /-- `rsp_valid`. -/
  valid : Bool
  /-- `rsp_y`, where it has a value. -/
  y : Option Word
  deriving DecidableEq, Repr

/-- The machine at the start of one cycle. -/
structure State where
  /-- The static parameters (R24): read by every step, written by none. -/
  cfg : Config
  /-- The stages 1 to `LATENCY`, stage 1 first (R25). Empty when `LATENCY` = 0. -/
  pipe : List Stage
  /-- What the response port showed during the last cycle run. -/
  rsp : PortOut
  /-- What the host drives during this cycle. -/
  port : PortIn
  /-- What the host drives during the cycles after this one, the next first. -/
  upcoming : List PortIn
  /-- MODEL'S OWN: how many events have left the data registers unspecified; the argument of the free values. -/
  freeCtr : Nat
  deriving DecidableEq, Repr

/-- Why a step stops with a fault. The CORE itself has no fault (R200): the one below is the host's. -/
inductive Fault where
  /-- Raised by the host's read of `rsp_y` (`hostRead`) with `LATENCY` ≥ 1 in a cycle with `rsp_valid` = 0 (R206, R234,
  decision D18). Safe: the hardware shows some word and the model names none. -/
  | rspYHoldsNoValue
  deriving DecidableEq, Repr

/-- Why a step is refused. -/
inductive Refusal where
  /-- Raised by an arm of `exec` whose instruction has no meaning yet. Safe. No arm raises it: every operation of the
  opcode table has its meaning. -/
  | notModelled (mnemonic : String)
  /-- Raised by every cycle under a configuration outside the legal set of R8 to R12: it names no hardware (R206,
  decision D24). Safe. -/
  | illegalConfig
  deriving DecidableEq, Repr

/-- The pins of a host that presents nothing: every level 0. The spec gives the host's pins no level at reset
(log entry 6). -/
def PortIn.quiet : PortIn where
  rst := false
  reqValid := false
  reqOp := 0#1
  reqA := 0#32
  readY := false

/-- The machine right after reset under a configuration (R35, R230): every valid bit 0, every data register unspecified,
nothing shown on the response port yet and nothing driven by the host (log entries 6 and 7). -/
def State.resetWith (cfg : Config) : State where
  cfg := cfg
  pipe := clearedStages cfg.latency 0
  rsp := { valid := false, y := none }
  port := PortIn.quiet
  upcoming := []
  freeCtr := 1

/-- The machine right after reset, in the default configuration (R4): `LATENCY` = 0, so there is no register to reset. -/
def State.reset : State := State.resetWith Config.default

end Sys2Proof.Machine
end

