-- ==== Sys2Proof/Machine/Ops.lean ====
section
/-! DEFINITION. The operations every cycle shares: the request port, the pipeline shift, the reset edge, the host's read
and the host's next pins. The CORE takes no exception and returns from none (R200, R203, R204), has no memory (R40)
and no register file (R21), so no operation for these stands here. -/

namespace Sys2Proof.Machine

/-- Run `f` on the next state, and pass a fault or a refusal on. -/
def andThen (r : Host.Outcome State Fault Refusal) (f : State → Host.Outcome State Fault Refusal) :
    Host.Outcome State Fault Refusal :=
  match r with
  | .next t => f t
  | .fault e => .fault e
  | .refused e => .refused e

/-- The command word on the request port: `cmd = {req_op, req_a}` (R64). -/
def fetchCmd (s : State) : Cmd := s.port.reqOp ++ s.port.reqA

/-- The combinational result `core(op, a)`, defined for all 2^33 command words (R69). -/
def coreResult (cfg : Config) (op : BitVec 1) (a : Word) : Word :=
  if op = 0#1 then decodeResult cfg a else encodeResult cfg a

/-- Stage 0: what the request port feeds the pipeline (R25): `v[0] = req_valid`, `d[0] = core(req_op, req_a)`. -/
def stageOf (cfg : Config) (p : PortIn) : Stage :=
  { valid := p.reqValid, data := coreResult cfg p.reqOp p.reqA }

/-- What the response port shows when stage `LATENCY` (stage 0 when `LATENCY` = 0) holds `st`: `rsp_valid` is its valid
bit; `rsp_y` is its data when `LATENCY` = 0 whatever the valid bit (R69), else only when the valid bit is 1 (R25,
R206, R234; conflict C9). DESIGN CHOICE (log entry 25): after a power-up and before the first reset edge the bit is a free
value, and where it is 1 the port shows the free word of its data register, which a read of the host then takes. -/
def portOut (cfg : Config) (st : Stage) : PortOut :=
  { valid := st.valid, y := if cfg.latency = 0 ∨ st.valid = true then some st.data else none }

/-- The last stage of the pipeline, which is stage 0 itself when there are no registers (R25, R69). -/
def lastStage (s : State) (stage0 : Stage) : Stage := s.pipe.getLastD stage0

/-- What the response port shows during the current cycle (R25, R69). -/
def responseNow (s : State) : PortOut := portOut s.cfg (lastStage s (stageOf s.cfg s.port))

/-- One cycle with `stage0` at the entry of the pipeline (R25, R69, R231): the response port shows the last stage, then
the clock edge moves every stage one place on. -/
def shiftEdge (s : State) (stage0 : Stage) : State :=
  { s with
    rsp := portOut s.cfg (lastStage s stage0)
    pipe := (stage0 :: s.pipe).dropLast }

/-- The state after a cycle with `rst` = 1 and `LATENCY` ≥ 1 (R230): the response port still shows the last stage
during the cycle; at its edge every valid bit becomes 0 and every data register is left unspecified; the request
presented is discarded. -/
def resetEdgeState (s : State) : State :=
  { s with
    rsp := responseNow s
    pipe := clearedStages s.cfg.latency s.freeCtr
    freeCtr := s.freeCtr + 1 }

/-- A state, unless the configuration names no hardware (R206). -/
def underLegalConfig (s t : State) : Host.Outcome State Fault Refusal :=
  if s.cfg.legal then .next t else .refused .illegalConfig

/-- A request's cycle: its result enters the pipeline with its valid bit 1 (R25, R69). -/
def present (y : Word) (s : State) : Host.Outcome State Fault Refusal :=
  underLegalConfig s (shiftEdge s { valid := true, data := y })

/-- A cycle in which no request is presented (`req_valid` = 0): the pipeline shifts all the same, with `v[0]` = 0 and
`d[0] = core(req_op, req_a)` (R25, R69). -/
def idleCycle (s : State) : Host.Outcome State Fault Refusal :=
  underLegalConfig s (shiftEdge s { valid := false, data := coreResult s.cfg s.port.reqOp s.port.reqA })

/-- A cycle with `rst` = 1 and `LATENCY` ≥ 1 (R230). -/
def resetCycle (s : State) : Host.Outcome State Fault Refusal := underLegalConfig s (resetEdgeState s)

/-- `rst` acts only when there is a reset input, with `LATENCY` ≥ 1 (R63, R230). -/
def resetActive (s : State) : Bool := s.port.rst && decide (0 < s.cfg.latency)

/-- The host's read of `rsp_y` in the cycle just run, where it made one: a fault where the port holds no value (R206,
R234). -/
def hostRead (t : State) : Host.Outcome State Fault Refusal :=
  match t.port.readY, t.rsp.y with
  | true, none => .fault .rspYHoldsNoValue
  | _, _ => .next t

/-- The pins in a cycle the host has nothing listed for: no request, no reset, no read; `req_op` and `req_a` keep their
levels (log entry 8). -/
def PortIn.hold (p : PortIn) : PortIn := { p with rst := false, reqValid := false, readY := false }

/-- The next cycle's pins reach the ports. -/
def nextInputs (s : State) : State :=
  match s.upcoming with
  | [] => { s with port := s.port.hold }
  | p :: ps => { s with port := p, upcoming := ps }

/-- A loss of power and the power-up after it (R213, R230): the responses in flight are lost and the pipeline registers
hold unspecified values until a reset edge. It is an act of the outside world, not part of `step` (log entry 9). DESIGN
CHOICE (log entry 26): a request presented before that reset edge, of which R213, R230 and R232 promise nothing, runs as any
other and is answered `LATENCY` cycles later; what the port shows and a read gives until then is log entry 25. -/
def State.powerCycle (s : State) : State :=
  { s with
    pipe := powerUpStages s.cfg.latency s.freeCtr
    rsp := { valid := false, y := none }
    freeCtr := s.freeCtr + 1 }

end Sys2Proof.Machine
end

