-- ==== Sys2Proof/Machine/Convert.lean ====
section
/-! DEFINITION. The meanings of the two operations of the opcode table (R100, R120). -/

namespace Sys2Proof.Machine

/-- DECODE (R100) of the operand field `a`: its result enters the pipeline (R25), or shows on the response port in the
same cycle when `LATENCY` = 0 (R69). -/
def execDecode (a : Word) (s : State) : Host.Outcome State Fault Refusal := present (decodeResult s.cfg a) s

/-- ENCODE (R120) of the operand `w`: its result enters the pipeline (R25), or shows on the response port in the same
cycle when `LATENCY` = 0 (R69). -/
def execEncode (w : Word) (s : State) : Host.Outcome State Fault Refusal := present (encodeResult s.cfg w) s

end Sys2Proof.Machine
end

