-- ==== Sys2Proof/Machine/Dispatch.lean ====
section
/-! DEFINITION. The dispatch: one arm per operation of the opcode table. -/

namespace Sys2Proof.Machine

def exec (i : Instr) (s : State) : Host.Outcome State Fault Refusal :=
  match i with
  | .decode a => Sys2Proof.Machine.execDecode a s
  | .encode w => Sys2Proof.Machine.execEncode w s

end Sys2Proof.Machine
end

