-- ==== Sys2Proof/Machine/Cycle.lean ====
section
/-! DEFINITION. One cycle of the CORE: what its pins select (R63 to R65, R69, R230, R231), then the host's read. -/

namespace Sys2Proof.Machine

/-- The CORE's own part of a cycle: a reset edge, else the operation the command word selects when a request is
presented, else an idle cycle. -/
def runCycle (s : State) : Host.Outcome State Fault Refusal :=
  if resetActive s then resetCycle s
  else if s.port.reqValid then exec (decodeCmd (fetchCmd s)) s
  else idleCycle s

/-- A cycle with the host's part: its read of `rsp_y`, and its next pins. -/
def runCycleAndAdvance (s : State) : Host.Outcome State Fault Refusal :=
  andThen (andThen (runCycle s) hostRead) fun t => .next (nextInputs t)

/-- The pins that present the command word `w` (bits 32 to 0) as a request, with no reset. -/
def presentCmd (p : PortIn) (w : Nat) : PortIn :=
  { p with
    rst := false
    reqValid := true
    reqOp := (BitVec.ofNat 33 w).extractLsb' 32 1
    reqA := (BitVec.ofNat 33 w).extractLsb' 0 32 }

end Sys2Proof.Machine
end

