-- ==== Sys2Proof/Machine/Step.lean ====
section
/-! DEFINITION. The step: one cycle of the CORE. -/

namespace Sys2Proof.Machine

/-- One cycle (R231; with `LATENCY` = 0, one evaluation of the combinational CORE, R69). -/
def step (s : State) : Host.Outcome State Fault Refusal := runCycleAndAdvance s

/-- `s` with the command word `w` presented as this cycle's request: the CORE fetches nothing (R22), its operation is
what the host presents (log entry 10). -/
def State.withFetchWord (s : State) (_nbits w : Nat) : State := { s with port := presentCmd s.port w }

end Sys2Proof.Machine
end

