-- ==== Sys2Proof/Machine/Trace.lean ====
section
/-! DEFINITION. Several cycles in a row, seen at the two ports: what the host drives and what the response port shows. -/

namespace Sys2Proof.Machine

/-- The pins of the next `n` cycles, this one first. -/
def pinsOver : Nat → State → List PortIn
  | 0, _ => []
  | n + 1, s => s.port :: pinsOver n (nextInputs s)

/-- What the response port shows in the next `n` cycles, up to the first fault or refusal. -/
def responsesOver : Nat → State → List PortOut
  | 0, _ => []
  | n + 1, s =>
    match step s with
    | .next t => t.rsp :: responsesOver n t
    | .fault _ => []
    | .refused _ => []

/-- The state after `n` cycles, or the first fault or refusal. -/
def runCycles : Nat → State → Host.Outcome State Fault Refusal
  | 0, s => .next s
  | n + 1, s => andThen (step s) (runCycles n)

end Sys2Proof.Machine
end

