-- ==== Sys2Proof/Machine/HostProgram.lean ====
section
/-! DEFINITION. The host's side of R74 and R75: host variables, the statements `hD <- DECODE hS`, `hD <- ENCODE hS` and
the pseudo-instruction `hD <- QUANT hS`. Host variables are the host's, no state of the CORE (R21, R22). -/

namespace Sys2Proof.Machine

/-- Host variables by number, the latest value first. -/
abbrev HostVars := List (Nat × Word)

/-- The value of a host variable; `none` where nothing has been stored in it. -/
def hostGet (vars : HostVars) (n : Nat) : Option Word := vars.lookup n

/-- Store a response in a host variable. -/
def hostSet (vars : HostVars) (n : Nat) (v : Word) : HostVars := (n, v) :: vars

/-- A host statement (R74, R75): destination and source variables. -/
inductive HostStmt where
  /-- `hD <- DECODE hS`. -/
  | decode (dst src : Nat)
  /-- `hD <- ENCODE hS`. -/
  | encode (dst src : Nat)
  /-- `hD <- QUANT hS`. -/
  | quant (dst src : Nat)
  deriving DecidableEq, Repr

/-- One request of a host program: the operand's variable, the operation and the response's variable (R74). -/
structure HostReq where
  dst : Nat
  op : BitVec 1
  src : Nat
  deriving DecidableEq, Repr

/-- The requests a statement stands for (R74); `QUANT` is the two requests `hT <- ENCODE hS` and `hD <- DECODE hT`, with
hT the host variable `fresh` (R75). -/
def HostStmt.expand (fresh : Nat) : HostStmt → List HostReq
  | .decode d s => [⟨d, 0#1, s⟩]
  | .encode d s => [⟨d, 1#1, s⟩]
  | .quant d s => [⟨fresh, 1#1, s⟩, ⟨d, 0#1, fresh⟩]

/-- A host variable that neither the stored variables nor the statement's own use. -/
def freshVar (vars : HostVars) : HostStmt → Nat
  | .decode d s | .encode d s | .quant d s => (vars.map Prod.fst).foldl max (max d s) + 1

/-- The host presents one request in this cycle and reads `rsp_y` in the cycle of its response, `LATENCY` cycles later,
presenting nothing in between (R231, R234). -/
def driveRequest (op : BitVec 1) (a : Word) (s : State) : State :=
  { s with
    port := { rst := false, reqValid := true, reqOp := op, reqA := a, readY := decide (s.cfg.latency = 0) }
    upcoming :=
      match s.cfg.latency with
      | 0 => []
      | n + 1 => List.replicate n PortIn.quiet ++ [{ PortIn.quiet with readY := true }] }

/-- Run one request to its response: the state after it and the word read. `none` where a variable holds nothing or the
CORE stops. -/
def runReq (r : HostReq) (h : HostVars × State) : Option (HostVars × State) :=
  match hostGet h.1 r.src with
  | none => none
  | some a =>
    match runCycles (h.2.cfg.latency + 1) (driveRequest r.op a h.2) with
    | .next t => t.rsp.y.map fun y => (hostSet h.1 r.dst y, t)
    | .fault _ => none
    | .refused _ => none

/-- Run requests in order. -/
def runReqs : List HostReq → HostVars × State → Option (HostVars × State)
  | [], h => some h
  | r :: rs, h => (runReq r h).bind (runReqs rs)

/-- Run one host statement (R74, R75). -/
def runStmt (stmt : HostStmt) (h : HostVars × State) : Option (HostVars × State) :=
  runReqs (stmt.expand (freshVar h.1 stmt)) h

/-- The word QUANT gives for a word (R75). -/
def quantWord (cfg : Config) (w : Word) : Word := decodeResult cfg (encodeResult cfg w)

end Sys2Proof.Machine
end

