-- ==== Sys2Proof/Machine/Assembler.lean ====
section
/-! DEFINITION. The assembler form of one request (R74): `DECODE 0xHH` and `ENCODE 0xHHHHHHHH`. Texts are lists of
characters. A hex digit above 9 is read in either case and written as a capital (log entry 11). -/

namespace Sys2Proof.Machine

/-- The characters of the hex digits 0 to 15. -/
def hexChars : List Char := ['0', '1', '2', '3', '4', '5', '6', '7', '8', '9', 'A', 'B', 'C', 'D', 'E', 'F']

/-- The character of a hex digit. -/
def hexChar (d : Nat) : Char := hexChars.getD d '0'

/-- The value of a hex digit's character. -/
def hexVal (c : Char) : Option Nat :=
  if 48 ≤ c.toNat ∧ c.toNat ≤ 57 then some (c.toNat - 48)
  else if 65 ≤ c.toNat ∧ c.toNat ≤ 70 then some (c.toNat - 55)
  else if 97 ≤ c.toNat ∧ c.toNat ≤ 102 then some (c.toNat - 87)
  else none

/-- The `n` low hex digits of `v`, most significant first. -/
def hexDigits : Nat → Nat → List Char
  | 0, _ => []
  | n + 1, v => hexChar (v / 16 ^ n % 16) :: hexDigits n v

/-- Read hex digits, most significant first, onto the value `acc` of the digits before them. -/
def readHex : List Char → Nat → Option Nat
  | [], acc => some acc
  | c :: cs, acc =>
    match hexVal c with
    | some d => readHex cs (16 * acc + d)
    | none => none

/-- A hex literal of exactly `n` digits, without its `0x`. -/
def readLiteral (n : Nat) (cs : List Char) : Option Nat := if cs.length = n then readHex cs 0 else none

/-- What stands before the digits of a DECODE (R74). -/
def decodeHead : List Char := ['D', 'E', 'C', 'O', 'D', 'E', ' ', '0', 'x']

/-- What stands before the digits of an ENCODE (R74). -/
def encodeHead : List Char := ['E', 'N', 'C', 'O', 'D', 'E', ' ', '0', 'x']

/-- The request a line of assembler text writes (R74): `DECODE <b>` has `req_a = zext_32(<b>)`, `ENCODE <w>` has
`req_a = <w>`. -/
def assemble (text : List Char) : Option Instr :=
  if text.take 9 = decodeHead then
    (readLiteral 2 (text.drop 9)).map fun v => .decode (BitVec.setWidth 32 (BitVec.ofNat 8 v))
  else if text.take 9 = encodeHead then (readLiteral 8 (text.drop 9)).map fun v => .encode (BitVec.ofNat 32 v)
  else none

/-- The assembler text of a request (R74). A DECODE shows `req_a[7:0]` only: `Instr.writable` says when that is all. -/
def disassemble : Instr → List Char
  | .decode a => decodeHead ++ hexDigits 2 (a.toNat % 256)
  | .encode w => encodeHead ++ hexDigits 8 w.toNat

end Sys2Proof.Machine
end

