-- ==== Sys2Proof/Machine/Identity.lean ====
section
/-! DEFINITION. The configuration string of R4 and decision D17. -/

namespace Sys2Proof.Machine

/-- The name of an `OVF_MODE` value (R8). -/
def ovfModeName : OvfMode → List Char
  | .nan => ['N', 'A', 'N']
  | .sat => ['S', 'A', 'T']
  | .nanStrict => ['N', 'A', 'N', '_', 'S', 'T', 'R', 'I', 'C', 'T']

/-- The name of an `INF_MODE` value (R9). -/
def infModeName : InfMode → List Char
  | .nan => ['N', 'A', 'N']
  | .sat => ['S', 'A', 'T']

/-- The name of an `ENC_NAN_SIGN` value (R10). -/
def nanSignName : NanSign → List Char
  | .copy => ['C', 'O', 'P', 'Y']
  | .positive => ['P', 'O', 'S', 'I', 'T', 'I', 'V', 'E']

/-- The configuration string (R4). `DECNAN` shows the word `DEC_NAN(0)`, as the spec's own default string does
(log entry 12). -/
def configIdentity (c : Config) : List Char :=
  "e4m3fn-cvt-v7/OVF=".toList ++ ovfModeName c.ovfMode ++ "/INF=".toList ++ infModeName c.infMode
    ++ "/NANSIGN=".toList ++ nanSignName c.encNanSign ++ "/DECNAN=0x".toList ++ hexDigits 8 c.decNanPos.toNat
    ++ "/LAT=".toList ++ Nat.toDigits 10 c.latency

end Sys2Proof.Machine
end

