-- ==== Sys2Proof/Machine/Instances.lean ====
section
/-! DEFINITION. Several instances of the CORE side by side (R54, R211): each has its own ports and its own state, and they
share nothing. -/

namespace Sys2Proof.Machine

/-- Several instances: one state each (R211). An instance has no identifier; its place in the list is the host's name for
it. -/
abbrev Instances := List State

/-- One cycle of the instance at place `k`: the others are not touched (R54). `none` where there is no such instance or
its cycle stops. -/
def stepInstance (k : Nat) (sys : Instances) : Option Instances :=
  match sys[k]? with
  | none => none
  | some s =>
    match step s with
    | .next t => some (sys.set k t)
    | .fault _ => none
    | .refused _ => none

end Sys2Proof.Machine
end

