-- ==== Sys2Proof/Safety.lean ====
section
/-! DEFINITION. What a safe run is, and the invariant of the state that claims about several cycles rest on. -/

namespace Sys2Proof.Machine

/-- The host keeps its one timing duty in this cycle (R234): where it reads `rsp_y`, the port holds a value. -/
def ReadsAValue (s : State) : Prop := s.port.readY = true → (responseNow s).y.isSome = true

/-- A safe cycle: the configuration names hardware (R206) and the host keeps its duty. -/
def SafeCycle (s : State) : Prop := s.cfg.legal = true ∧ ReadsAValue s

/-- A safe run of `n` cycles: each of them is a safe cycle. -/
def SafeRun : Nat → State → Prop
  | 0, _ => True
  | n + 1, s => SafeCycle s ∧ ∀ t, step s = .next t → SafeRun n t

/-- The pipeline has one stage for each cycle of `LATENCY` (R25). -/
def PipeLength (s : State) : Prop := s.pipe.length = s.cfg.latency

/-- Every response in flight is the result of some command word (R25, R69). -/
def PipeHoldsResults (s : State) : Prop :=
  ∀ st ∈ s.pipe, st.valid = true → ∃ (op : BitVec 1) (a : Word), st.data = coreResult s.cfg op a

/-- The invariant: a legal configuration, a pipeline of the right length, and nothing but results in flight. -/
structure Inv (s : State) : Prop where
  legal : s.cfg.legal = true
  length : PipeLength s
  results : PipeHoldsResults s

end Sys2Proof.Machine
end

