-- ==== Sys2Proof/Certificates/Slice0/Obligations.lean ====
section
/-! DEFINITION. The statements for the provers. A statement about a free value holds for every value of it; a statement
about a result holds for every configuration, or names the parameters it fixes (R8 to R12). -/

open Sys2Proof Sys2Proof.Machine

/-- Four command words of the opcode map decode to the requests they stand for (30_encoding.md R64, 30_encoding.md R65,
95_test_vectors.md V-CMD). The command words 0:00000038, 0:FFFFFF38, 1:3F800000 and 1:FF800000 of V-CMD decode to
DECODE and ENCODE with their operand fields. -/
def Obligations.CommandWordsDecode : Prop :=
  decodeTableWord 40 0x000000038 = some (.decode 0x00000038#32) ∧
  decodeTableWord 40 0x0FFFFFF38 = some (.decode 0xFFFFFF38#32) ∧
  decodeTableWord 40 0x13F800000 = some (.encode 0x3F800000#32) ∧
  decodeTableWord 40 0x1FF800000 = some (.encode 0xFF800000#32)

/-- Bit 32 selects the operation, and the match and mask of the opcode map read it (R65). For every command word: op = 0
exactly when the word under the mask 0x100000000 is the match 0x000000000, and then it is DECODE of its operand
field; op = 1 exactly when it is 0x100000000, and then it is ENCODE of its operand field. -/
def Obligations.OpcodeMap : Prop :=
  ∀ cmd : Cmd,
    (cmd.getLsbD 32 = false ↔ cmd &&& 0x100000000#33 = 0x000000000#33) ∧
    (cmd.getLsbD 32 = true ↔ cmd &&& 0x100000000#33 = 0x100000000#33) ∧
    (cmd.getLsbD 32 = false → decodeCmd cmd = .decode (cmd.extractLsb' 0 32)) ∧
    (cmd.getLsbD 32 = true → decodeCmd cmd = .encode (cmd.extractLsb' 0 32))

/-- All 2^33 command words are requests, and nothing else is (30_encoding.md R64, 30_encoding.md R71, 30_encoding.md
R72). Whatever the number of bits the table gives, every number below 2^33 decodes to a well-formed request whose
command word is that number, no other request has it, and no number from 2^33 up decodes. That the number of bits
decides nothing and that larger numbers are refused is a deduction of the model from R64 and R72 (log entry 18,
DEDUCED), not the words of a rule. -/
def Obligations.EveryCommandWordIsOneRequest : Prop :=
  ∀ n w : Nat,
    (w < 2 ^ 33 → ∃ i, decodeTableWord n w = some i ∧ i.wellFormed = true ∧ (encodeCmd i).toNat = w ∧
      ∀ j, (encodeCmd j).toNat = w → j = i) ∧
    (2 ^ 33 ≤ w → decodeTableWord n w = none)

/-- Decoding an encoded request gives the request back (30_encoding.md R64, 30_encoding.md R65, 30_encoding.md R66,
30_encoding.md R67). For every well-formed request, with every operand field (the bits DECODE ignores among them),
the decoder gives back the request from its command word, as a 33-bit vector and as the number the opcode table
numbers; presented in any state, the request port holds that command word. The clause for every number of bits rests
on log entry 18 and the clause on withFetchWord on log entry 10, both deductions of the model (DEDUCED). -/
def Obligations.DecodeOfEncode : Prop :=
  ∀ i : Instr, i.wellFormed = true →
    decodeCmd (encodeCmd i) = i ∧
    (∀ n, decodeTableWord n (encodeCmd i).toNat = some i) ∧
    ∀ (n : Nat) (s : State), fetchCmd (s.withFetchWord n (encodeCmd i).toNat) = encodeCmd i

/-- Assembling the text of a request gives the request back (30_encoding.md R74). Every request that has an assembler
form is what its text assembles to; DECODE 0xHH writes req_a = zext_32(0xHH) for every byte and ENCODE 0xHHHHHHHH
writes req_a = 0xHHHHHHHH for every word. -/
def Obligations.AssemblerRoundTrip : Prop :=
  (∀ i : Instr, i.writable = true → assemble (disassemble i) = some i) ∧
  (∀ b : Code, assemble (decodeHead ++ hexDigits 2 b.toNat) = some (.decode (b.setWidth 32))) ∧
  (∀ w : Word, assemble (encodeHead ++ hexDigits 8 w.toNat) = some (.encode w))

/-- The classes of the 256 codes, by fields and by codes (R27). Each code is NaN, zero, subnormal or normal exactly by
the conditions on its fields that R27 gives, and exactly in the code ranges that R27 lists; codeClass is a function,
so each code has one class; every code but the two NaN codes has a finite value, so there is no infinity. -/
def Obligations.CodeClasses : Prop :=
  ∀ b : Code,
    (codeClass b = .nan ↔ codeExp b = 0b1111#4 ∧ codeMan b = 0b111#3) ∧
    (codeClass b = .zero ↔ codeExp b = 0#4 ∧ codeMan b = 0#3) ∧
    (codeClass b = .subnormal ↔ codeExp b = 0#4 ∧ codeMan b ≠ 0#3) ∧
    (codeClass b = .normal ↔ 1#4 ≤ codeExp b ∧ ¬ (codeExp b = 15#4 ∧ codeMan b = 7#3)) ∧
    (codeClass b = .nan ↔ b = 0x7F#8 ∨ b = 0xFF#8) ∧
    (codeClass b = .zero ↔ b = 0x00#8 ∨ b = 0x80#8) ∧
    (codeClass b = .subnormal ↔ (0x01#8 ≤ b ∧ b ≤ 0x07#8) ∨ (0x81#8 ≤ b ∧ b ≤ 0x87#8)) ∧
    (codeClass b = .normal ↔ (0x08#8 ≤ b ∧ b ≤ 0x7E#8) ∨ (0x88#8 ≤ b ∧ b ≤ 0xFE#8)) ∧
    (codeClass b ≠ .nan ↔ (val8 b).isSome = true)

/-- The constants of the e4m3fn format (R29). The values R29 lists: 448, 2^-6, 7 × 2^-9, 2^-9 and 1.0, and 480 for the
magnitude pattern of NaN, which is no value of the format; 448 is the largest finite magnitude. -/
def Obligations.FormatConstants : Prop :=
  val8 0x7E#8 = some 448 ∧ (∀ b x, val8 b = some x → |x| ≤ 448) ∧
  val8 0x08#8 = some (1 / 2 ^ 6) ∧ (∀ b x, codeClass b = .normal → val8 b = some x → 1 / 2 ^ 6 ≤ |x|) ∧
  val8 0x07#8 = some (7 / 2 ^ 9) ∧ (∀ b x, codeClass b = .subnormal → val8 b = some x → |x| ≤ 7 / 2 ^ 9) ∧
  val8 0x01#8 = some (1 / 2 ^ 9) ∧ (∀ b x, val8 b = some x → x ≠ 0 → 1 / 2 ^ 9 ≤ |x|) ∧
  val8 0x38#8 = some 1 ∧ codeExp 0x38#8 = 7#4 ∧ codeMan 0x38#8 = 0#3 ∧
  val8 0x7F#8 = none ∧ magCodeValue 0x7F#7 = 480

/-- Magnitude codes rise in value, by the gaps of their binades (R30). The magnitude is strictly increasing in the
magnitude code; the gap from c to c+1 is 2^-9 below code 8 and 2^(e-10) from code 8 on; of two adjacent codes exactly
one is even, and its m field has least-significant bit 0. -/
def Obligations.MagnitudeCodeOrder : Prop :=
  (∀ c d : MagCode, c.toNat ≤ 0x7E → d.toNat ≤ 0x7E → (c < d ↔ magCodeValue c < magCodeValue d)) ∧
  (∀ c d : MagCode, d.toNat ≤ 0x7E → d.toNat = c.toNat + 1 →
    (c.toNat < 8 → magCodeValue d - magCodeValue c = 1 / 2 ^ 9) ∧
    (8 ≤ c.toNat → magCodeValue d - magCodeValue c = 2 ^ (natSlice c.toNat 6 3) / 2 ^ 10) ∧
    ((c.getLsbD 0 = false ∧ d.getLsbD 0 = true) ∨ (c.getLsbD 0 = true ∧ d.getLsbD 0 = false))) ∧
  (∀ s c, (codeMan (packCode s c)).getLsbD 0 = c.getLsbD 0)

/-- The order of finite magnitude words is the order of their magnitudes (R34). For finite binary32 words the unsigned
order of the magnitude words is the order of the magnitudes of their values, and 448, 464, 480 and infinity have the
magnitude words R34 gives. -/
def Obligations.MagnitudeWordOrder : Prop :=
  (∀ w v : Word, ∀ x y : ℚ, val32 w = some x → val32 v = some y → (wordMag w ≤ wordMag v ↔ |x| ≤ |y|)) ∧
  (∀ w : Word, (val32 w).isSome = true ↔ wordExp w ≤ 254#8) ∧
  val32 0x43E00000#32 = some 448 ∧ val32 0x43E80000#32 = some 464 ∧ val32 0x43F00000#32 = some 480 ∧
  (∀ w : Word, wordIsInf w = true ↔ wordMag w = 0x7F800000#31)

/-- DECODE gives the exact value of every code that is not NaN (R101). Under every configuration, for every code that is
not NaN, the decoded word has exactly the value of the code, and its sign bit is the sign bit of the code, zero
included. -/
def Obligations.DecodeExact : Prop :=
  ∀ (cfg : Config) (b : Code), codeIsNaN b = false →
    (∃ x, val8 b = some x ∧ val32 (dec cfg b) = some x) ∧ wordSign (dec cfg b) = codeSign b

/-- The decoded word is the only one of its value and sign (40_decoder.md R102, 40_decoder.md R101, 10_state.md R32).
Whatever binary32 word has the value of a code and its sign is the word DECODE gives: nonzero finite values have one
word each, and so have the two signed zeros. -/
def Obligations.DecodeUnique : Prop :=
  (∀ (cfg : Config) (b : Code) (y : Word), codeIsNaN b = false → val32 y = val8 b → wordSign y = codeSign b →
    y = dec cfg b) ∧
  (∀ (w v : Word) (x : ℚ), val32 w = some x → val32 v = some x → (x ≠ 0 ∨ wordSign w = wordSign v) → w = v)

/-- DECODE of a NaN code is DEC_NAN of its sign, a binary32 NaN (R103). Under every legal configuration, a code with
magnitude code 0x7F decodes to DEC_NAN of its sign bit, and that word is a binary32 NaN, whatever the legal DEC_NAN. -/
def Obligations.DecodeNaN : Prop :=
  ∀ (cfg : Config) (b : Code), cfg.legal = true → codeMag b = 0x7F#7 →
    dec cfg b = (if b.getLsbD 7 = false then cfg.decNanPos else cfg.decNanNeg) ∧ wordClass (dec cfg b) = .nan

/-- Every finite result of DECODE is a normal binary32 or a zero (R104). Under every legal configuration: subnormal codes
give exponent fields 118 to 120, normal codes 121 to 135, zero codes a zero; every finite result is a normal or a
zero; DECODE never gives a binary32 subnormal or an infinity. -/
def Obligations.DecodeExponentRange : Prop :=
  ∀ (cfg : Config) (b : Code), cfg.legal = true →
    (codeClass b = .subnormal → 118#8 ≤ wordExp (dec cfg b) ∧ wordExp (dec cfg b) ≤ 120#8) ∧
    (codeClass b = .normal → 121#8 ≤ wordExp (dec cfg b) ∧ wordExp (dec cfg b) ≤ 135#8) ∧
    (codeClass b = .zero → wordClass (dec cfg b) = .zero) ∧
    (wordIsFinite (dec cfg b) = true → wordClass (dec cfg b) = .normal ∨ wordClass (dec cfg b) = .zero) ∧
    wordClass (dec cfg b) ≠ .subnormal ∧ wordClass (dec cfg b) ≠ .infinity

/-- DECODE keeps the order of values (R105). For two codes that are not NaN, a smaller value decodes to a smaller value. -/
def Obligations.DecodeOrder : Prop :=
  ∀ (cfg : Config) (b1 b2 : Code) (x1 x2 : ℚ), val8 b1 = some x1 → val8 b2 = some x2 → x1 < x2 →
    ∃ y1 y2, val32 (dec cfg b1) = some y1 ∧ val32 (dec cfg b2) = some y2 ∧ y1 < y2

/-- RND is round-to-nearest-even by value (R141). For every finite magnitude: ovf exactly above 464; big exactly above
448; without ovf the code is one of 0 to 0x7E, no code is nearer, and where another code is equally near the code is
the even one (and the other is adjacent); with ovf the code is 0x7E. -/
def Obligations.RoundByValue : Prop :=
  ∀ mag : MagWord, magExp mag ≤ 254#8 →
    ((rnd mag).ovf = true ↔ 464 < magWordValue mag) ∧
    ((rnd mag).big = true ↔ 448 < magWordValue mag) ∧
    ((rnd mag).ovf = true → (rnd mag).c = 0x7E#7) ∧
    ((rnd mag).ovf = false → (rnd mag).c ≤ 0x7E#7 ∧ ∀ d : MagCode, d ≤ 0x7E#7 →
      |magCodeValue (rnd mag).c - magWordValue mag| ≤ |magCodeValue d - magWordValue mag| ∧
      (d ≠ (rnd mag).c → |magCodeValue d - magWordValue mag| = |magCodeValue (rnd mag).c - magWordValue mag| →
        (rnd mag).c.getLsbD 0 = false ∧ (d.toNat = (rnd mag).c.toNat + 1 ∨ (rnd mag).c.toNat = d.toNat + 1)))

/-- RND judges too large a magnitude as the word comparisons do (R142). For every finite magnitude word: ovf implies big;
big without ovf, the magnitudes above 448 up to 464, gives the code 0x7E; ovf is mag > 0x43E80000 and big is mag >
0x43E00000. -/
def Obligations.RoundFlagsAsWords : Prop :=
  ∀ mag : MagWord, magExp mag ≤ 254#8 →
    ((rnd mag).ovf = true → (rnd mag).big = true) ∧
    ((rnd mag).big = true ∧ (rnd mag).ovf = false ↔ 448 < magWordValue mag ∧ magWordValue mag ≤ 464) ∧
    ((rnd mag).big = true → (rnd mag).ovf = false → (rnd mag).c = 0x7E#7) ∧
    ((rnd mag).ovf = true ↔ 0x43E80000#31 < mag) ∧
    ((rnd mag).big = true ↔ 0x43E00000#31 < mag)

/-- A tie goes to the even code (42_rounding_unit.md R143, 42_rounding_unit.md R141). A finite magnitude halfway between
the codes c and c+1 rounds, without ovf, to the even one of them; 464 rounds to 0x7E without ovf; in the normal arm,
up to 464, a magnitude is such a midpoint or 464 exactly when G = 1 and S = 0. -/
def Obligations.RoundTies : Prop :=
  (∀ (mag : MagWord) (c d : MagCode), magExp mag ≤ 254#8 → d ≤ 0x7E#7 → d.toNat = c.toNat + 1 →
    magWordValue mag = (magCodeValue c + magCodeValue d) / 2 →
    (rnd mag).ovf = false ∧ (rnd mag).c = (if c.getLsbD 0 = false then c else d)) ∧
  (∀ mag : MagWord, magExp mag ≤ 254#8 → magWordValue mag = 464 → (rnd mag).ovf = false ∧ (rnd mag).c = 0x7E#7) ∧
  (∀ mag : MagWord, 121#8 ≤ magExp mag → magExp mag ≤ 254#8 → magWordValue mag ≤ 464 →
    (((∃ c d : MagCode, d ≤ 0x7E#7 ∧ d.toNat = c.toNat + 1 ∧
        magWordValue mag = (magCodeValue c + magCodeValue d) / 2) ∨ magWordValue mag = 464) ↔
      mag.getLsbD 19 = true ∧ mag.extractLsb' 0 19 = 0#19))

/-- RND on its own with exponent field 255 (42_rounding_unit.md R145). With exponent field 255, whatever the fraction,
RND gives c = 0x7E, ovf = 1, big = 1; and ENCODE never lets it decide: under every configuration its result for
exponent field 255 is the NaN code or the one INF_MODE gives. -/
def Obligations.RoundExponent255 : Prop :=
  (∀ mag : MagWord, magExp mag = 255#8 → (rnd mag).c = 0x7E#7 ∧ (rnd mag).ovf = true ∧ (rnd mag).big = true) ∧
  (∀ (cfg : Config) (w : Word), wordExp w = 255#8 →
    enc cfg w = if wordFrac w = 0#23 then encInf cfg (wordSign w) else encNan cfg (wordSign w))

/-- Every quantity of the integer datapath fits its width (R146). For every finite magnitude, the quantities of R140 lie
in the ranges R146 gives, in the normal arm (E from 121 to 135) and in the subnormal arm (E up to 120), and the
exponent sums of DEC in theirs. -/
def Obligations.DatapathWidths : Prop :=
  (∀ E F : Nat, 121 ≤ E → E ≤ 135 → F < 2 ^ 23 →
    (1 ≤ E - 120 ∧ E - 120 ≤ 15) ∧ (0x08 ≤ rndC0 E F ∧ rndC0 E F ≤ 0x7F) ∧ (0x08 ≤ rndC1 E F ∧ rndC1 E F ≤ 0x80) ∧
    (rndC1 E F = rndC0 E F ∨ rndC1 E F = rndC0 E F + 1)) ∧
  (∀ E F : Nat, E ≤ 120 → F < 2 ^ 23 →
    rndM E F ≤ 2 ^ 24 - 1 ∧ (21 ≤ rndK E ∧ rndK E ≤ 140) ∧ rndQ E F ≤ 7 ∧ rndSubC E F ≤ 8 ∧
    (rndSubC E F = rndQ E F ∨ rndSubC E F = rndQ E F + 1)) ∧
  (∀ b : Code, codeClass b = .normal → 121 ≤ (codeExp b).toNat + 120 ∧ (codeExp b).toNat + 120 ≤ 135) ∧
  (∀ b : Code, codeClass b = .subnormal →
    118 ≤ 118 + msbIndex (codeMan b).toNat ∧ 118 + msbIndex (codeMan b).toNat ≤ 120)

/-- ENCODE of a finite word, by value (R121). For every configuration and finite word with sign s and magnitude x: the
NaN code when OVF_MODE is NAN and x > 464 or NAN_STRICT and x > 448; {s, 0x7E} when it is SAT and x > 448; otherwise
{s, c} with c in 0 to 0x7E nearest to x, the even one where another is equally near. -/
def Obligations.EncodeByValue : Prop :=
  ∀ (cfg : Config) (w : Word) (v : ℚ), val32 w = some v →
    ((cfg.ovfMode = .nan ∧ 464 < |v|) ∨ (cfg.ovfMode = .nanStrict ∧ 448 < |v|) →
      enc cfg w = (if cfg.encNanSign = .copy then packCode (wordSign w) 0x7F#7 else 0x7F#8)) ∧
    (cfg.ovfMode = .sat ∧ 448 < |v| → enc cfg w = packCode (wordSign w) 0x7E#7) ∧
    (¬ ((cfg.ovfMode = .nan ∧ 464 < |v|) ∨ (cfg.ovfMode = .nanStrict ∧ 448 < |v|)) →
      ¬ (cfg.ovfMode = .sat ∧ 448 < |v|) →
      ∃ c : MagCode, enc cfg w = packCode (wordSign w) c ∧ c ≤ 0x7E#7 ∧ ∀ d : MagCode, d ≤ 0x7E#7 →
        abs (magCodeValue c - |v|) ≤ abs (magCodeValue d - |v|) ∧
        (d ≠ c → abs (magCodeValue d - |v|) = abs (magCodeValue c - |v|) → c.getLsbD 0 = false))

/-- ENCODE of NaN, infinity and zero, by the policies (00_scope.md R9, 00_scope.md R10, 41_encoder.md R120, 10_state.md
R33). For every configuration: a NaN, quiet or signalling alike, gives magnitude code 0x7F with the sign ENC_NAN_SIGN
asks for; an infinity gives that NaN code under INF_MODE = NAN and 448 with its sign under SAT; a zero gives the zero
of its sign. -/
def Obligations.EncodeSpecials : Prop :=
  ∀ (cfg : Config) (w : Word),
    (wordIsQuietNaN w = true ∨ wordIsSignallingNaN w = true →
      enc cfg w = (if cfg.encNanSign = .copy then packCode (wordSign w) 0x7F#7 else 0x7F#8)) ∧
    (wordClass w = .infinity → cfg.infMode = .nan →
      enc cfg w = (if cfg.encNanSign = .copy then packCode (wordSign w) 0x7F#7 else 0x7F#8)) ∧
    (wordClass w = .infinity → cfg.infMode = .sat → enc cfg w = packCode (wordSign w) 0x7E#7) ∧
    (wordClass w = .zero → enc cfg w = packCode (wordSign w) 0x00#7)

/-- The sign of every result of ENCODE (R122). Every result that is not a NaN code has the sign of the input, a nonzero
input that rounds to zero included (a negative one below 2^-10 in magnitude gives 0x80); a NaN code has the sign
ENC_NAN_SIGN sets. -/
def Obligations.EncodeSign : Prop :=
  ∀ (cfg : Config) (w : Word),
    (codeIsNaN (enc cfg w) = false → codeSign (enc cfg w) = wordSign w) ∧
    (codeIsNaN (enc cfg w) = true → codeSign (enc cfg w) = (if cfg.encNanSign = .copy then wordSign w else 0#1)) ∧
    (∀ x, val32 w = some x → x < 0 → |x| < 1 / 2 ^ 10 → enc cfg w = 0x80#8)

/-- A binary32 subnormal encodes to the zero of its sign, flushed or not (R123). Every binary32 subnormal has magnitude
below 2^-126 and gives the signed zero, which is also what the zero of its sign gives. -/
def Obligations.EncodeSubnormalInput : Prop :=
  ∀ (cfg : Config) (w : Word), wordClass w = .subnormal →
    (∃ x, val32 w = some x ∧ |x| < 1 / 2 ^ 126) ∧
    enc cfg w = packCode (wordSign w) 0#7 ∧
    enc cfg w = enc cfg (packWord (wordSign w) 0#8 0#23)

/-- The overflow thresholds as word comparisons (R124). For a finite word: above 448 exactly when w[30:0] > 0x43E00000,
above 464 exactly when w[30:0] > 0x43E80000; from w[30:0] = 0x43F00000 on, which is magnitude 480, the largest
binary32 0x7F7FFFFF included, the result is that of an overflow in every mode. -/
def Obligations.OverflowThresholds : Prop :=
  (∀ (w : Word) (v : ℚ), val32 w = some v →
    (448 < |v| ↔ 0x43E00000#31 < wordMag w) ∧ (464 < |v| ↔ 0x43E80000#31 < wordMag w) ∧
    (480 ≤ |v| ↔ 0x43F00000#31 ≤ wordMag w)) ∧
  (∀ (cfg : Config) (w : Word), wordIsFinite w = true → 0x43F00000#31 ≤ wordMag w →
    (cfg.ovfMode = .sat → enc cfg w = packCode (wordSign w) 0x7E#7) ∧
    (cfg.ovfMode ≠ .sat →
      enc cfg w = (if cfg.encNanSign = .copy then packCode (wordSign w) 0x7F#7 else 0x7F#8))) ∧
  (wordIsFinite 0x7F7FFFFF#32 = true ∧ 0x43F00000#31 ≤ wordMag 0x7F7FFFFF#32 ∧
    ∀ w : Word, wordIsFinite w = true → wordMag w ≤ wordMag 0x7F7FFFFF#32)

/-- Encoding a decoded code gives the code back (R125, 95_test_vectors.md V-PROP Q3). Under every legal configuration,
ENCODE(DECODE(b)) = b for every code that is not NaN (whose magnitude is at most 448); for a NaN code it is a NaN
code, and under ENC_NAN_SIGN = COPY with a DEC_NAN that keeps the sign, as the default does, it is b. Under POSITIVE
it is 0x7F: that clause is V-PROP Q3, from R10, and no sentence of R125. -/
def Obligations.RoundTrip : Prop :=
  (∀ (cfg : Config) (b : Code), cfg.legal = true →
    (codeMag b ≠ 0x7F#7 → enc cfg (dec cfg b) = b) ∧
    (codeMag b ≠ 0x7F#7 → ∃ x, val8 b = some x ∧ |x| ≤ 448) ∧
    (codeMag b = 0x7F#7 → codeIsNaN (enc cfg (dec cfg b)) = true) ∧
    (codeMag b = 0x7F#7 → cfg.encNanSign = .copy →
      wordSign cfg.decNanPos = 0#1 → wordSign cfg.decNanNeg = 1#1 → enc cfg (dec cfg b) = b) ∧
    (codeMag b = 0x7F#7 → cfg.encNanSign = .positive → enc cfg (dec cfg b) = 0x7F#8)) ∧
  (wordSign Config.default.decNanPos = 0#1 ∧ wordSign Config.default.decNanNeg = 1#1)

/-- ENCODE never reverses an order (R126). For finite inputs with val32(w1) ≤ val32(w2) whose results are both finite
codes, the values of the results are in the same order; and there are distinct inputs with one code. -/
def Obligations.EncodeOrder : Prop :=
  ∀ cfg : Config,
    (∀ (w1 w2 : Word) (x1 x2 y1 y2 : ℚ), val32 w1 = some x1 → val32 w2 = some x2 → x1 ≤ x2 →
      val8 (enc cfg w1) = some y1 → val8 (enc cfg w2) = some y2 → y1 ≤ y2) ∧
    (∃ w1 w2 : Word, w1 ≠ w2 ∧ enc cfg w1 = enc cfg w2 ∧ (val32 w1).isSome = true ∧ (val32 w2).isSome = true)

/-- In the normal arm ENCODE reads the low fraction bits only as guard and sticky (95_test_vectors.md V-PROP Q5,
42_rounding_unit.md R140). Two words with one sign and one exponent field from 121 to 135 that agree in F[22:20], in
F[19] and in whether F[18:0] is zero encode to one code, under every configuration. -/
def Obligations.EncodeReadsOneStickyBit : Prop :=
  ∀ (cfg : Config) (w v : Word), wordSign w = wordSign v → wordExp w = wordExp v →
    121#8 ≤ wordExp w → wordExp w ≤ 135#8 → w.extractLsb' 19 4 = v.extractLsb' 19 4 →
    (w.extractLsb' 0 19 = 0#19 ↔ v.extractLsb' 0 19 = 0#19) → enc cfg w = enc cfg v

/-- What each result depends on (40_decoder.md R106, 41_encoder.md R127, 30_encoding.md R66, 10_state.md R24). DECODE
depends on req_a[7:0] and DEC_NAN only, ENCODE on its operand, OVF_MODE, INF_MODE and ENC_NAN_SIGN only; LATENCY
changes neither. -/
def Obligations.ResultsReadOnlyTheirParameters : Prop :=
  (∀ (c d : Config) (a a' : Word), a.extractLsb' 0 8 = a'.extractLsb' 0 8 → c.decNanPos = d.decNanPos →
    c.decNanNeg = d.decNanNeg → coreResult c 0#1 a = coreResult d 0#1 a') ∧
  (∀ (c d : Config) (a : Word), c.ovfMode = d.ovfMode → c.infMode = d.infMode → c.encNanSign = d.encNanSign →
    coreResult c 1#1 a = coreResult d 1#1 a)

/-- Where results stand on the response port (R66, R68). DECODE reads req_a[7:0] and ignores req_a[31:8]: its result is
that of DEC on the byte, all 32 bits; the result of ENCODE is the code of ENC in bits 7 to 0 with bits 31 to 8 zero. -/
def Obligations.ResultPlacement : Prop :=
  ∀ (cfg : Config) (a : Word),
    coreResult cfg 0#1 a = dec cfg (a.extractLsb' 0 8) ∧
    (∀ a' : Word, a'.extractLsb' 0 8 = a.extractLsb' 0 8 → coreResult cfg 0#1 a' = coreResult cfg 0#1 a) ∧
    (coreResult cfg 1#1 a).extractLsb' 0 8 = enc cfg a ∧ (coreResult cfg 1#1 a).extractLsb' 8 24 = 0#24

/-- A DECODE request completes, and what it leaves (40_decoder.md R100, 30_encoding.md R69, 10_state.md R25,
40_decoder.md R106). In every state with a legal configuration and one stage per cycle of LATENCY, exec of DECODE
answers a next state: with LATENCY = 0 the response port shows the decoded word in that cycle; otherwise the word
enters stage 1 with its valid bit 1, every stage moves one place on, and the port shows the stage that leaves.
Configuration, pins, and the free-value counter are unchanged; there is nothing else to change (no register, flag or
memory). With LATENCY at least 1, after a power-up with no reset edge yet, the spec promises nothing of a request
(R213, R230, R232): there the statement rests on choices of the model, that the request runs as any other (log entry
26, DESIGN CHOICE) and what the port shows of a stage with a free valid bit (log entry 25, DESIGN CHOICE). -/
def Obligations.DecodeCompletes : Prop :=
  ∀ (a : Word) (s : State), s.cfg.legal = true → PipeLength s →
    ∃ t, exec (.decode a) s = .next t ∧
      t.cfg = s.cfg ∧ t.port = s.port ∧ t.upcoming = s.upcoming ∧ t.freeCtr = s.freeCtr ∧
      (s.cfg.latency = 0 → t.pipe = [] ∧ t.rsp = ⟨true, some (dec s.cfg (a.extractLsb' 0 8))⟩) ∧
      (∀ (rest : List Stage) (last : Stage), s.pipe = rest ++ [last] →
        t.pipe = ⟨true, dec s.cfg (a.extractLsb' 0 8)⟩ :: rest ∧
        t.rsp = ⟨last.valid, if last.valid = true then some last.data else none⟩)

/-- An ENCODE request completes, and what it leaves (41_encoder.md R120, 30_encoding.md R68, 30_encoding.md R69,
10_state.md R25, 41_encoder.md R127). In every state with a legal configuration and one stage per cycle of LATENCY,
exec of ENCODE answers a next state: the zero-extended code shows on the response port in that cycle with LATENCY =
0, and otherwise enters stage 1 with its valid bit 1, every stage moving one place on and the port showing the stage
that leaves. Everything else is unchanged. With LATENCY at least 1, after a power-up with no reset edge yet, the spec
promises nothing of a request (R213, R230, R232): there the statement rests on choices of the model, that the request
runs as any other (log entry 26, DESIGN CHOICE) and what the port shows of a stage with a free valid bit (log entry
25, DESIGN CHOICE). -/
def Obligations.EncodeCompletes : Prop :=
  ∀ (w : Word) (s : State), s.cfg.legal = true → PipeLength s →
    ∃ t, exec (.encode w) s = .next t ∧
      t.cfg = s.cfg ∧ t.port = s.port ∧ t.upcoming = s.upcoming ∧ t.freeCtr = s.freeCtr ∧
      (s.cfg.latency = 0 → t.pipe = [] ∧ t.rsp = ⟨true, some ((enc s.cfg w).setWidth 32)⟩) ∧
      (∀ (rest : List Stage) (last : Stage), s.pipe = rest ++ [last] →
        t.pipe = ⟨true, (enc s.cfg w).setWidth 32⟩ :: rest ∧
        t.rsp = ⟨last.valid, if last.valid = true then some last.data else none⟩)

/-- A step runs the request on the port (30_encoding.md R64, 30_encoding.md R65, 30_encoding.md R69,
70_reset_and_hazards.md R231). When a request is presented and no reset acts, the step is exec of the instruction the
command word decodes to, then the check of the read of the host (which stops a read of a port that holds no value and
otherwise changes nothing), then the next pins; withFetchWord presents exactly the given command word. Three clauses
are of the model and of no rule: the check of the read (log entry 16, DEDUCED), withFetchWord (log entry 10,
DEDUCED), and the pins held with rst, req_valid and the read low in a cycle for which the host has listed nothing
(log entry 8, DESIGN CHOICE). That rst is ignored with LATENCY = 0 is log entry 14 (DEDUCED). That it holds after a
power-up with no reset edge yet (LATENCY at least 1) is log entry 26 (DESIGN CHOICE), and what a read gives there log
entry 25 (DESIGN CHOICE). -/
def Obligations.StepRunsThePresentedRequest : Prop :=
  (∀ s : State, s.port.reqValid = true → (s.port.rst = false ∨ s.cfg.latency = 0) →
    step s = andThen (exec (decodeCmd (fetchCmd s)) s) fun t =>
      if t.port.readY = true ∧ t.rsp.y = none then .fault .rspYHoldsNoValue else .next (nextInputs t)) ∧
  (∀ (s : State) (n w : Nat) (i : Instr), decodeTableWord n w = some i →
    step (s.withFetchWord n w) = andThen (exec i (s.withFetchWord n w)) fun t =>
      if t.port.readY = true ∧ t.rsp.y = none then .fault .rspYHoldsNoValue else .next (nextInputs t)) ∧
  (∀ (s : State) (p : PortIn) (ps : List PortIn), s.upcoming = p :: ps →
    nextInputs s = { s with port := p, upcoming := ps }) ∧
  (∀ s : State, s.upcoming = [] →
    nextInputs s = { s with port := { s.port with rst := false, reqValid := false, readY := false } })

/-- The three outcomes of a step, and exactly when each (60_exceptions.md R206, 60_exceptions.md R200, 10_state.md R25,
70_reset_and_hazards.md R234). In every state with one stage per cycle of LATENCY: a step is refused exactly under an
illegal configuration; it faults exactly when the host reads rsp_y, with LATENCY at least 1, while the last stage is
not valid, under a legal configuration; otherwise it answers a next state. That every cycle is refused, exactly when
a word of DEC_NAN is no NaN, is log entry 2, and that the step faults on exactly such a read is log entry 16, both
deductions of the model (DEDUCED) from R206; that the same condition decides in a cycle with rst = 1, where the port
shows the last stage as in any other, is log entry 15 (DEDUCED); a read after a power-up and before the first reset
edge is log entry 25 (DESIGN CHOICE). -/
def Obligations.StepOutcomes : Prop :=
  ∀ s : State, PipeLength s →
    ((∃ r, step s = .refused r) ↔ ¬ (wordIsNaN s.cfg.decNanPos = true ∧ wordIsNaN s.cfg.decNanNeg = true)) ∧
    ((∃ f, step s = .fault f) ↔ s.cfg.legal = true ∧ s.port.readY = true ∧
      ∃ (rest : List Stage) (last : Stage), s.pipe = rest ++ [last] ∧ last.valid = false) ∧
    ((∃ t, step s = .next t) ↔ SafeCycle s)

/-- With LATENCY = 0 the response shows in the same cycle and nothing is kept (30_encoding.md R69, 10_state.md R20,
70_reset_and_hazards.md R230). With LATENCY = 0, no pipeline register and a legal configuration, every step answers a
next state, whatever the pins, rst and the read of the host among them: rsp_valid is req_valid, rsp_y is core(req_op,
req_a) whatever req_valid, and there is still no pipeline register. That rst is ignored is log entry 14 (DEDUCED),
and that one step is one evaluation with levels held stable is log entry 3 (DESIGN CHOICE), the choice of the model.
DecodeCompletes and EncodeCompletes say where a request completes for every LATENCY. -/
def Obligations.CombinationalResponse : Prop :=
  ∀ s : State, s.cfg.legal = true → s.cfg.latency = 0 → PipeLength s →
    ∃ t, step s = .next t ∧ t.rsp = ⟨s.port.reqValid, some (coreResult s.cfg s.port.reqOp s.port.reqA)⟩ ∧
      t.pipe = [] ∧ t.cfg = s.cfg

/-- A reset edge clears every stage and discards the request (70_reset_and_hazards.md R230, 10_state.md R35, 10_state.md
R25). With LATENCY at least 1 and rst = 1, from whatever the pipeline held (after a power-up too), the cycle ends
with LATENCY stages, none valid, so neither the request presented nor any response in flight is left; the response
port showed the last stage during the cycle; configuration and pins are unchanged. The data registers hold the free
values of log entry 4, and the statement says nothing of them. With LATENCY = 0 there is no reset input: rst changes
nothing. Three clauses are of the model: the port in a cycle with rst = 1 (log entry 15, DEDUCED), rst ignored with
LATENCY = 0 (log entry 14, DEDUCED), and what a loss of power keeps (log entry 9, DESIGN CHOICE). What the port shows
in that cycle after a power-up is log entry 25 (DESIGN CHOICE). -/
def Obligations.ResetLeavesNothingValid : Prop :=
  (∀ s : State, s.cfg.legal = true → s.port.rst = true → 0 < s.cfg.latency →
    ∃ t, runCycle s = .next t ∧ t.pipe.length = s.cfg.latency ∧ (∀ st ∈ t.pipe, st.valid = false) ∧
      t.rsp = responseNow s ∧ t.cfg = s.cfg ∧ t.port = s.port ∧ t.upcoming = s.upcoming ∧ Inv t) ∧
  (∀ s : State, s.cfg.legal = true → s.port.rst = true → 0 < s.cfg.latency →
    ∃ t, runCycle s.powerCycle = .next t ∧ Inv t) ∧
  (∀ (s t : State) (b : Bool), s.cfg.latency = 0 →
    (runCycle s = .next t → runCycle { s with port := { s.port with rst := b } } =
      .next { t with port := { t.port with rst := b } }))

/-- The machine right after reset (10_state.md R35, 00_scope.md R4, 10_state.md R25). Under every configuration the state
after reset has one stage per cycle of LATENCY, none valid; the model resets to the default configuration, in which
LATENCY = 0 and there is no stage at all. That the pins are quiet and nothing has been shown yet is the choice of the
model (log entries 6 and 7). -/
def Obligations.StateAfterReset : Prop :=
  (∀ cfg : Config, (State.resetWith cfg).cfg = cfg ∧ (State.resetWith cfg).pipe.length = cfg.latency ∧
    ∀ st ∈ (State.resetWith cfg).pipe, st.valid = false) ∧
  State.reset = State.resetWith Config.default ∧ State.reset.pipe = [] ∧
  State.reset.cfg.ovfMode = .nan ∧ State.reset.cfg.infMode = .nan ∧ State.reset.cfg.encNanSign = .copy ∧
  State.reset.cfg.decNanPos = 0x7FF00000#32 ∧ State.reset.cfg.decNanNeg = 0xFFF00000#32 ∧
  State.reset.cfg.latency = 0 ∧ State.reset.port = PortIn.quiet ∧ State.reset.upcoming = [] ∧
  State.reset.rsp = ⟨false, none⟩

/-- The invariant holds right after reset (10_state.md R35, 60_exceptions.md R206). Under every legal configuration the
state after reset meets the invariant, and so does the state the model resets to. -/
def Obligations.InvAtReset : Prop :=
  (∀ cfg : Config, cfg.legal = true → Inv (State.resetWith cfg)) ∧ Inv State.reset

/-- Every step keeps the invariant (10_state.md R25, 10_state.md R24, 30_encoding.md R69, 70_reset_and_hazards.md R231).
From every state that meets the invariant (legal configuration, one stage per cycle of LATENCY, nothing but results
of command words in flight), a next state meets it, with the same configuration, and a valid response it shows is the
result of some command word. That the response shown in a cycle with rst = 1 is the last stage is log entry 15
(DEDUCED). A state some cycles after a power-up with no reset edge yet (LATENCY at least 1) may meet the invariant
too; there the statement rests on log entry 26 (DESIGN CHOICE). -/
def Obligations.StepKeepsInv : Prop :=
  ∀ s t : State, Inv s → step s = .next t →
    Inv t ∧ t.cfg = s.cfg ∧
    (t.rsp.valid = true → ∃ (op : BitVec 1) (a : Word), t.rsp.y = some (coreResult s.cfg op a))

/-- No run changes a parameter (10_state.md R24, 20_memory.md R52). Whatever is presented and for however many cycles, a
run that answers a next state has the configuration it started with, and keeps the number of stages. -/
def Obligations.ParametersNeverChange : Prop :=
  ∀ (n : Nat) (s t : State), runCycles n s = .next t →
    t.cfg = s.cfg ∧ (PipeLength s → PipeLength t)

/-- Every request is answered exactly LATENCY cycles later (70_reset_and_hazards.md R231, 60_exceptions.md R207,
10_state.md R25, 70_reset_and_hazards.md R233). From every state with a legal configuration and one stage per cycle
of LATENCY in which a request is presented, whatever else is in flight and whatever is presented later, if no reset
acts and the host does not read in the LATENCY cycles from this one on, the run of LATENCY + 1 cycles completes (the
host may read in the last), and in its last cycle the response port shows rsp_valid = 1 and core(req_op, req_a). Of
the model are the step in which a response shows (log entry 23, DEDUCED), that it still shows where rst = 1 in the
last cycle (log entry 15, DEDUCED), that rst is ignored with LATENCY = 0 (log entry 14, DEDUCED), and that a request
presented after a power-up with no reset edge yet (LATENCY at least 1) is answered as any other (log entry 26, DESIGN
CHOICE). -/
def Obligations.ResponseAfterLatency : Prop :=
  ∀ s : State, s.cfg.legal = true → PipeLength s → s.port.reqValid = true →
    (∀ p ∈ pinsOver s.cfg.latency s, p.rst = false ∧ p.readY = false) →
    ∃ t, runCycles (s.cfg.latency + 1) s = .next t ∧
      t.rsp = ⟨true, some (coreResult s.cfg s.port.reqOp s.port.reqA)⟩

/-- What the response port shows is what was in flight, then the requests, in order (20_memory.md R49,
70_reset_and_hazards.md R231, 10_state.md R25, 70_reset_and_hazards.md R233). From every state with one stage per
cycle of LATENCY, over any number of cycles, with rst = 0 in each where LATENCY is at least 1, in a run that keeps
the duty of the host, the response port shows first the stages in flight, last stage first, then one response for
each cycle of the request port, in order: valid where a request was presented, with core(req_op, req_a), each exactly
LATENCY cycles after its cycle. Of the model are the step in which a response shows (log entry 23, DEDUCED), that rst
is ignored with LATENCY = 0 (log entry 14, DEDUCED), and that this holds after a power-up with no reset edge yet
(LATENCY at least 1) (log entries 25 and 26, DESIGN CHOICE). -/
def Obligations.ResponsesInRequestOrder : Prop :=
  ∀ (n : Nat) (s : State), PipeLength s → SafeRun n s →
    (0 < s.cfg.latency → ∀ p ∈ pinsOver n s, p.rst = false) →
    responsesOver n s =
      ((s.pipe.reverse ++ (pinsOver n s).map (stageOf s.cfg)).take n).map (portOut s.cfg)

/-- No request can observe what came before it (10_state.md R20, 70_reset_and_hazards.md R233, 20_memory.md R48). Two
states of one configuration, with whatever different responses in flight, and whatever different pins in the cycles
after this one, that present the same request in this cycle, run for LATENCY + 1 cycles with rst = 0 in the first
LATENCY of them: in the last cycle, in which rst may be 1, the response port shows the same. Of the model are the
step in which a response shows (log entry 23, DEDUCED), that it still shows where rst = 1 in the last cycle (log
entry 15, DEDUCED), that rst is ignored with LATENCY = 0 (log entry 14, DEDUCED), and that this holds after a
power-up with no reset edge yet (LATENCY at least 1), where the spec promises nothing of a request (log entry 26,
DESIGN CHOICE). -/
def Obligations.NoRequestObservesAnother : Prop :=
  ∀ s1 s2 t1 t2 : State, s1.cfg = s2.cfg → PipeLength s1 → PipeLength s2 →
    s1.port.reqValid = s2.port.reqValid → s1.port.reqOp = s2.port.reqOp → s1.port.reqA = s2.port.reqA →
    (∀ p ∈ pinsOver s1.cfg.latency s1, p.rst = false) → (∀ p ∈ pinsOver s2.cfg.latency s2, p.rst = false) →
    runCycles (s1.cfg.latency + 1) s1 = .next t1 → runCycles (s2.cfg.latency + 1) s2 = .next t2 →
    t1.rsp = t2.rsp

/-- A run in which the host keeps its duty never stops (60_exceptions.md R200, 60_exceptions.md R207,
70_reset_and_hazards.md R234). A safe run of n cycles completes; with LATENCY = 0, and for a host that never reads,
every run under a legal configuration is safe. With LATENCY = 0 this rests on the levels being stable during one
step, a choice of the model (log entry 3, DESIGN CHOICE); there R234 states a duty of the host inside a cycle, which
the model does not show. That a read in a cycle with rst = 1 passes where the last stage is valid is log entry 15
(DEDUCED), and that rst is ignored with LATENCY = 0 is log entry 14 (DEDUCED). That a read passes where a free valid
bit is 1, after a power-up with no reset edge yet (LATENCY at least 1), is log entry 25 (DESIGN CHOICE). -/
def Obligations.SafeRunCompletes : Prop :=
  (∀ (n : Nat) (s : State), SafeRun n s → ∃ t, runCycles n s = .next t) ∧
  (∀ (n : Nat) (s : State), s.cfg.legal = true → s.cfg.latency = 0 → SafeRun n s) ∧
  (∀ (n : Nat) (s : State), s.cfg.legal = true → (∀ p ∈ pinsOver n s, p.readY = false) → SafeRun n s)

/-- QUANT gives the nearest value e4m3fn can represent (30_encoding.md R75, 41_encoder.md R120, 41_encoder.md R121,
00_scope.md R9, 40_decoder.md R101, 40_decoder.md R103, 00_scope.md R11). QUANT is ENCODE then DECODE, with a fresh
variable between them; for a finite input that does not encode to a NaN code its result is a binary32 word, under
every configuration, whose value is the value of a code and is nearest to the input among the values of all codes; an
infinity under INF_MODE = SAT gives 448 with its sign; an input that encodes to a NaN code gives a binary32 NaN under
a legal configuration. The clause on an infinity is R9 and R120, the clause on a NaN code R103 and R11. R75 says only
that the variable between them is fresh: which one it is is a choice of the model (log entry 19, DESIGN CHOICE). -/
def Obligations.QuantNearest : Prop :=
  (∀ (vars : HostVars) (d s : Nat), (HostStmt.quant d s).expand (freshVar vars (.quant d s)) =
      [⟨freshVar vars (.quant d s), 1#1, s⟩, ⟨d, 0#1, freshVar vars (.quant d s)⟩] ∧
    freshVar vars (.quant d s) ≠ d ∧ freshVar vars (.quant d s) ≠ s ∧
    ∀ p ∈ vars, p.1 ≠ freshVar vars (.quant d s)) ∧
  (∀ (cfg : Config) (w : Word) (x : ℚ), val32 w = some x → codeIsNaN (enc cfg w) = false →
    ∃ q, val32 (quantWord cfg w) = some q ∧ (∃ b, val8 b = some q) ∧
      ∀ (b : Code) (y : ℚ), val8 b = some y → |q - x| ≤ |y - x|) ∧
  (∀ (cfg : Config) (w : Word), cfg.infMode = .sat → wordIsInf w = true →
    val32 (quantWord cfg w) = some (if wordSign w = 0#1 then 448 else -448)) ∧
  (∀ (cfg : Config) (w : Word), cfg.legal = true → codeIsNaN (enc cfg w) = true →
    wordIsNaN (quantWord cfg w) = true)

/-- Quantising twice is quantising once (30_encoding.md R75, 41_encoder.md R125). Under every legal configuration, a word
that does not encode to a NaN code quantises to a word that quantises to itself. -/
def Obligations.QuantIdempotent : Prop :=
  ∀ (cfg : Config) (w : Word), cfg.legal = true → codeIsNaN (enc cfg w) = false →
    quantWord cfg (quantWord cfg w) = quantWord cfg w

/-- A host statement stores the response of its request (30_encoding.md R74, 30_encoding.md R75, 30_encoding.md R69,
70_reset_and_hazards.md R231, 70_reset_and_hazards.md R234). From every state with a legal configuration and one
stage per cycle of LATENCY, with any host variables of which the source holds a word: hD <- DECODE hS stores core(0,
word), hD <- ENCODE hS stores core(1, word), hD <- QUANT hS stores the quantised word, each statement completes, and
every other variable that held a word keeps it. How the model runs a statement is its choice (log entry 19, DESIGN
CHOICE): host variables as a list, nothing presented for LATENCY cycles after a request, the read in the cycle of the
response. With LATENCY at least 1, after a power-up with no reset edge yet, where R230 lets nothing rely on
rsp_valid, that the response comes at all is a choice too (log entry 26, DESIGN CHOICE); the step in which it shows
is log entry 23 (DEDUCED). -/
def Obligations.HostStatementsStoreResponses : Prop :=
  ∀ (vars : HostVars) (s : State) (dst src : Nat) (a : Word), s.cfg.legal = true → PipeLength s →
    hostGet vars src = some a →
    (∃ vars' t, runStmt (.decode dst src) (vars, s) = some (vars', t) ∧
      hostGet vars' dst = some (coreResult s.cfg 0#1 a) ∧ ∀ n, n ≠ dst → hostGet vars' n = hostGet vars n) ∧
    (∃ vars' t, runStmt (.encode dst src) (vars, s) = some (vars', t) ∧
      hostGet vars' dst = some (coreResult s.cfg 1#1 a) ∧ ∀ n, n ≠ dst → hostGet vars' n = hostGet vars n) ∧
    (∃ vars' t, runStmt (.quant dst src) (vars, s) = some (vars', t) ∧
      hostGet vars' dst = some (quantWord s.cfg a) ∧
      ∀ n v, n ≠ dst → hostGet vars n = some v → hostGet vars' n = some v)

/-- Several instances share nothing (20_memory.md R54, 60_exceptions.md R211). A cycle of one instance is the step of its
own state and leaves every other instance as it was; cycles of two different instances may run in either order with
the same outcome. The list of states and the cycle of one instance at a time are choices of the model (log entry 20,
DESIGN CHOICE): this checks that they keep instances apart, and says nothing of what a step does. -/
def Obligations.InstancesIndependent : Prop :=
  (∀ (sys sys' : Instances) (k : Nat), stepInstance k sys = some sys' →
    sys'.length = sys.length ∧ (∀ j, j ≠ k → sys'[j]? = sys[j]?) ∧
    ∃ s t, sys[k]? = some s ∧ step s = .next t ∧ sys'[k]? = some t) ∧
  (∀ (sys : Instances) (k : Nat) (s t : State), sys[k]? = some s → step s = .next t →
    stepInstance k sys = some (sys.set k t)) ∧
  (∀ (sys : Instances) (j k : Nat), j ≠ k →
    (stepInstance j sys).bind (stepInstance k) = (stepInstance k sys).bind (stepInstance j))

/-- The name of the default configuration (00_scope.md R4). The default configuration has the string R4 gives. -/
def Obligations.DefaultIdentity : Prop :=
  configIdentity Config.default =
    "e4m3fn-cvt-v7/OVF=NAN/INF=NAN/NANSIGN=COPY/DECNAN=0x7FF00000/LAT=0".toList
end

