-- ==== Sys2Proof/Laws/Bits.lean ====
section
/-! SUPPORT. Bit fields as arithmetic: what concatenations and slices are as natural numbers. -/

namespace Sys2Proof.Machine

/-- A concatenation as a number. -/
theorem toNat_concat {m n : Nat} (x : BitVec m) (y : BitVec n) : (x ++ y).toNat = x.toNat * 2 ^ n + y.toNat := by
  rw [BitVec.toNat_append, ← Nat.shiftLeft_add_eq_or_of_lt y.isLt, Nat.shiftLeft_eq]

/-- A slice as a number. -/
theorem toNat_slice {w : Nat} (x : BitVec w) (lo len : Nat) :
    (x.extractLsb' lo len).toNat = x.toNat / 2 ^ lo % 2 ^ len := by
  rw [BitVec.extractLsb'_toNat, Nat.shiftRight_eq_div_pow]

/-- A one-bit vector is 0 or 1. -/
theorem bit_cases (s : BitVec 1) : s = 0#1 ∨ s = 1#1 := by
  have h := s.isLt
  rcases (by omega : s.toNat = 0 ∨ s.toNat = 1) with h0 | h1
  · exact .inl (BitVec.eq_of_toNat_eq h0)
  · exact .inr (BitVec.eq_of_toNat_eq h1)

theorem natBit_eq (v i : Nat) : natBit v i = v / 2 ^ i % 2 := rfl

theorem natSlice_eq (v hi lo : Nat) : natSlice v hi lo = v / 2 ^ lo % 2 ^ (hi + 1 - lo) := rfl

theorem natCat_eq (high width low : Nat) : natCat high width low = high * 2 ^ width + low := rfl

end Sys2Proof.Machine
end

