-- ==== Sys2Proof/Laws/Formats.lean ====
section
/-! SUPPORT. The fields of both formats as arithmetic on the whole word, and their values as whole numbers of the
smallest binary32 step 2^-149 (`magCodeUnits`, `magWordUnits`), so that claims about values become claims about `Nat`. -/

namespace Sys2Proof.Machine

theorem codeSign_toNat (b : Code) : (codeSign b).toNat = b.toNat / 2 ^ 7 % 2 := toNat_slice b 7 1
theorem codeExp_toNat (b : Code) : (codeExp b).toNat = b.toNat / 2 ^ 3 % 2 ^ 4 := toNat_slice b 3 4
theorem codeMan_toNat (b : Code) : (codeMan b).toNat = b.toNat % 2 ^ 3 := by
  have h := toNat_slice b 0 3
  rwa [pow_zero, Nat.div_one] at h
theorem codeMag_toNat (b : Code) : (codeMag b).toNat = b.toNat % 2 ^ 7 := by
  have h := toNat_slice b 0 7
  rwa [pow_zero, Nat.div_one] at h

theorem packCode_toNat (s : BitVec 1) (c : MagCode) : (packCode s c).toNat = s.toNat * 2 ^ 7 + c.toNat :=
  toNat_concat s c

theorem wordSign_toNat (w : Word) : (wordSign w).toNat = w.toNat / 2 ^ 31 % 2 := toNat_slice w 31 1
theorem wordExp_toNat (w : Word) : (wordExp w).toNat = w.toNat / 2 ^ 23 % 2 ^ 8 := toNat_slice w 23 8
theorem wordFrac_toNat (w : Word) : (wordFrac w).toNat = w.toNat % 2 ^ 23 := by
  have h := toNat_slice w 0 23
  rwa [pow_zero, Nat.div_one] at h
theorem wordMag_toNat (w : Word) : (wordMag w).toNat = w.toNat % 2 ^ 31 := by
  have h := toNat_slice w 0 31
  rwa [pow_zero, Nat.div_one] at h
theorem magExp_toNat (m : MagWord) : (magExp m).toNat = m.toNat / 2 ^ 23 := by
  have h := toNat_slice m 23 8
  have := m.isLt
  rw [show magExp m = m.extractLsb' 23 8 from rfl, h]
  omega
theorem magFrac_toNat (m : MagWord) : (magFrac m).toNat = m.toNat % 2 ^ 23 := by
  have h := toNat_slice m 0 23
  rwa [pow_zero, Nat.div_one] at h

theorem packWord_toNat (s : BitVec 1) (E : BitVec 8) (F : BitVec 23) :
    (packWord s E F).toNat = s.toNat * 2 ^ 31 + E.toNat * 2 ^ 23 + F.toNat := by
  have h : (packWord s E F).toNat = (s ++ E).toNat * 2 ^ 23 + F.toNat := toNat_concat (s ++ E) F
  have h2 := toNat_concat s E
  rw [h, h2]
  omega

@[simp] theorem codeSign_pack (s : BitVec 1) (c : MagCode) : codeSign (packCode s c) = s := by
  apply BitVec.eq_of_toNat_eq
  rw [codeSign_toNat, packCode_toNat]
  have := s.isLt
  have := c.isLt
  omega

@[simp] theorem codeMag_pack (s : BitVec 1) (c : MagCode) : codeMag (packCode s c) = c := by
  apply BitVec.eq_of_toNat_eq
  rw [codeMag_toNat, packCode_toNat]
  have := c.isLt
  omega

/-- A code is its sign and its magnitude code. -/
theorem packCode_fields (b : Code) : packCode (codeSign b) (codeMag b) = b := by
  apply BitVec.eq_of_toNat_eq
  rw [packCode_toNat, codeSign_toNat, codeMag_toNat]
  have := b.isLt
  omega

@[simp] theorem wordSign_pack (s : BitVec 1) (E : BitVec 8) (F : BitVec 23) : wordSign (packWord s E F) = s := by
  apply BitVec.eq_of_toNat_eq
  rw [wordSign_toNat, packWord_toNat]
  have := s.isLt
  have := E.isLt
  have := F.isLt
  omega

@[simp] theorem wordExp_pack (s : BitVec 1) (E : BitVec 8) (F : BitVec 23) : wordExp (packWord s E F) = E := by
  apply BitVec.eq_of_toNat_eq
  rw [wordExp_toNat, packWord_toNat]
  have := E.isLt
  have := F.isLt
  omega

@[simp] theorem wordFrac_pack (s : BitVec 1) (E : BitVec 8) (F : BitVec 23) : wordFrac (packWord s E F) = F := by
  apply BitVec.eq_of_toNat_eq
  rw [wordFrac_toNat, packWord_toNat]
  have := F.isLt
  omega

/-- A word is its three fields. -/
theorem packWord_fields (w : Word) : packWord (wordSign w) (wordExp w) (wordFrac w) = w := by
  apply BitVec.eq_of_toNat_eq
  rw [packWord_toNat, wordSign_toNat, wordExp_toNat, wordFrac_toNat]
  have := w.isLt
  omega

/-- A word's sign and magnitude word determine it. -/
theorem word_eq_of_sign_mag {w v : Word} (hs : wordSign w = wordSign v) (hm : wordMag w = wordMag v) : w = v := by
  apply BitVec.eq_of_toNat_eq
  have h1 := congrArg BitVec.toNat hs
  have h2 := congrArg BitVec.toNat hm
  rw [wordSign_toNat, wordSign_toNat] at h1
  rw [wordMag_toNat, wordMag_toNat] at h2
  have := w.isLt
  have := v.isLt
  omega

@[simp] theorem magExp_wordMag (w : Word) : magExp (wordMag w) = wordExp w := by
  apply BitVec.eq_of_toNat_eq
  rw [magExp_toNat, wordMag_toNat, wordExp_toNat]
  omega

@[simp] theorem magFrac_wordMag (w : Word) : magFrac (wordMag w) = wordFrac w := by
  apply BitVec.eq_of_toNat_eq
  rw [magFrac_toNat, wordMag_toNat, wordFrac_toNat]
  omega

/-- A magnitude word as a number, by its fields. -/
theorem mag_toNat_fields (m : MagWord) : m.toNat = (magExp m).toNat * 2 ^ 23 + (magFrac m).toNat := by
  rw [magExp_toNat, magFrac_toNat]
  omega

theorem wordIsFinite_iff (w : Word) : wordIsFinite w = true ↔ (wordExp w).toNat ≤ 254 := by
  have h := (wordExp w).isLt
  simp only [wordIsFinite, bne_iff_ne, ne_eq, ← BitVec.toNat_inj]
  simp
  omega

theorem codeIsNaN_iff (b : Code) : codeIsNaN b = true ↔ (codeMag b).toNat = 127 := by
  simp [codeIsNaN, ← BitVec.toNat_inj]

theorem codeIsNaN_false_iff (b : Code) : codeIsNaN b = false ↔ (codeMag b).toNat ≤ 126 := by
  have h := (codeMag b).isLt
  have := codeIsNaN_iff b
  cases hb : codeIsNaN b <;> simp [hb] at this ⊢ <;> omega

/-- The NaN test of R27 by fields is the test of the magnitude code. -/
theorem codeIsNaN_iff_fields (b : Code) : codeIsNaN b = true ↔ codeExp b = 0b1111#4 ∧ codeMan b = 0b111#3 := by
  rw [codeIsNaN_iff, ← BitVec.toNat_inj, ← BitVec.toNat_inj, codeMag_toNat, codeExp_toNat, codeMan_toNat]
  simp
  omega

/-- `V(c)` as a number of steps of 2^-149. -/
def magCodeUnits (n : Nat) : Nat := if n < 8 then n * 2 ^ 140 else (8 + n % 8) * 2 ^ (n / 8 + 139)

/-- A finite magnitude word's value as a number of steps of 2^-149. -/
def magWordUnits (E F : Nat) : Nat := if E = 0 then F else (2 ^ 23 + F) * 2 ^ (E - 1)

/-- `V(c)` in steps of 2^-149. -/
theorem magCodeValue_eq_units (c : MagCode) : magCodeValue c = (magCodeUnits c.toNat : ℚ) / 2 ^ 149 := by
  have hc := c.isLt
  have he : natSlice c.toNat 6 3 = c.toNat / 8 := by unfold natSlice; omega
  have hm : natSlice c.toNat 2 0 = c.toNat % 8 := by unfold natSlice; omega
  unfold magCodeValue magCodeUnits
  simp only [he, hm]
  by_cases h : c.toNat < 8
  · have h0 : c.toNat / 8 = 0 := by omega
    have h1 : c.toNat % 8 = c.toNat := by omega
    rw [if_pos h0, if_pos h, h1]
    push_cast
    norm_num
    ring
  · have h0 : ¬ c.toNat / 8 = 0 := by omega
    rw [if_neg h0, if_neg h, pow_add]
    push_cast
    norm_num
    ring

/-- A magnitude word's value in steps of 2^-149. -/
theorem magWordValue_eq_units (m : MagWord) :
    magWordValue m = (magWordUnits (magExp m).toNat (magFrac m).toNat : ℚ) / 2 ^ 149 := by
  unfold magWordValue magWordUnits
  by_cases h : (magExp m).toNat = 0
  · simp only [if_pos h]
  · obtain ⟨k, hk⟩ : ∃ k, (magExp m).toNat = k + 1 := ⟨(magExp m).toNat - 1, by omega⟩
    simp only [hk, Nat.add_sub_cancel, pow_succ]
    push_cast
    ring

/-- Magnitude codes are compared with magnitude words in steps of 2^-149. -/
theorem codeValue_le_wordValue (c : MagCode) (m : MagWord) :
    magCodeValue c ≤ magWordValue m ↔ magCodeUnits c.toNat ≤ magWordUnits (magExp m).toNat (magFrac m).toNat := by
  rw [magCodeValue_eq_units, magWordValue_eq_units, div_le_div_iff_of_pos_right (by positivity)]
  exact_mod_cast Iff.rfl

/-- The value of a finite word. -/
theorem val32_of_finite {w : Word} (h : wordIsFinite w = true) :
    val32 w = some (signFactor (wordSign w) * magWordValue (wordMag w)) := by
  simp [val32, h]

/-- The value of a code that is not NaN. -/
theorem val8_of_not_nan {b : Code} (h : codeIsNaN b = false) :
    val8 b = some (signFactor (codeSign b) * magCodeValue (codeMag b)) := by
  simp [val8, h]

theorem magCodeValue_nonneg (c : MagCode) : 0 ≤ magCodeValue c := by
  rw [magCodeValue_eq_units]; positivity

theorem magWordValue_nonneg (m : MagWord) : 0 ≤ magWordValue m := by
  rw [magWordValue_eq_units]; positivity

/-- The lowest bit of a vector, by its number. -/
theorem getLsbD_zero_eq {n : Nat} (v : BitVec n) : v.getLsbD 0 = decide (v.toNat % 2 = 1) := by
  rw [BitVec.getLsbD, Nat.testBit_eq_decide_div_mod_eq]
  simp

/-- The magnitude of a signed value. -/
theorem abs_signFactor_mul (s : BitVec 1) {x : ℚ} (h : 0 ≤ x) : |signFactor s * x| = x := by
  unfold signFactor
  split
  · simp [abs_of_nonneg h]
  · simp [abs_of_nonneg h]

/-- What a code's value says about the code. -/
theorem val8_eq_some {b : Code} {x : ℚ} (h : val8 b = some x) :
    codeIsNaN b = false ∧ |x| = magCodeValue (codeMag b) ∧ x = signFactor (codeSign b) * magCodeValue (codeMag b) := by
  unfold val8 at h
  split at h
  · simp at h
  · next hn =>
    rw [Bool.not_eq_true] at hn
    rw [Option.some.injEq] at h
    exact ⟨hn, by rw [← h, abs_signFactor_mul _ (magCodeValue_nonneg _)], h.symm⟩

/-- What a word's value says about the word. -/
theorem val32_eq_some {w : Word} {x : ℚ} (h : val32 w = some x) :
    wordIsFinite w = true ∧ |x| = magWordValue (wordMag w) ∧ x = signFactor (wordSign w) * magWordValue (wordMag w) := by
  unfold val32 at h
  split at h
  · next hf =>
    rw [Option.some.injEq] at h
    exact ⟨hf, by rw [← h, abs_signFactor_mul _ (magWordValue_nonneg _)], h.symm⟩
  · simp at h

/-- The order of the fields of two magnitude words is the order of their values in steps of 2^-149. -/
theorem magWordUnits_lt {E F E' F' : Nat} (hF : F < 2 ^ 23) (hF' : F' < 2 ^ 23)
    (h : E * 2 ^ 23 + F < E' * 2 ^ 23 + F') : magWordUnits E F < magWordUnits E' F' := by
  unfold magWordUnits
  by_cases hE : E = E'
  · subst hE
    split
    · omega
    · exact Nat.mul_lt_mul_of_pos_right (by omega) (by positivity)
  · have hlt : E < E' := by omega
    rw [if_neg (show ¬ E' = 0 by omega)]
    have hmin : 2 ^ 23 * 2 ^ (E' - 1) ≤ (2 ^ 23 + F') * 2 ^ (E' - 1) := Nat.mul_le_mul_right _ (by omega)
    refine lt_of_lt_of_le ?_ hmin
    split
    · calc F < 2 ^ 23 := hF
        _ ≤ 2 ^ 23 * 2 ^ (E' - 1) := Nat.le_mul_of_pos_right _ (Nat.two_pow_pos _)
    · obtain ⟨k, hk⟩ : ∃ k, E' - 1 = E - 1 + 1 + k := ⟨E' - E - 1, by omega⟩
      have hp : 2 ^ (E' - 1) = 2 ^ (E - 1) * 2 * 2 ^ k := by rw [hk, pow_add, pow_succ]
      rw [hp]
      calc (2 ^ 23 + F) * 2 ^ (E - 1) < 2 ^ 23 * 2 * 2 ^ (E - 1) :=
            Nat.mul_lt_mul_of_pos_right (by omega) (by positivity)
        _ = 2 ^ 23 * (2 ^ (E - 1) * 2) := by ring
        _ ≤ 2 ^ 23 * (2 ^ (E - 1) * 2) * 2 ^ k := Nat.le_mul_of_pos_right _ (Nat.two_pow_pos _)
        _ = 2 ^ 23 * (2 ^ (E - 1) * 2 * 2 ^ k) := by ring

/-- Magnitude words are compared by their values exactly as by their bits. -/
theorem magWordValue_lt_iff {m n : MagWord} : magWordValue m < magWordValue n ↔ m.toNat < n.toNat := by
  rw [magWordValue_eq_units, magWordValue_eq_units, div_lt_div_iff_of_pos_right (by positivity), Nat.cast_lt]
  have h1 := mag_toNat_fields m
  have h2 := mag_toNat_fields n
  have f1 := (magFrac m).isLt
  have f2 := (magFrac n).isLt
  constructor
  · intro h
    by_contra hc
    rcases Nat.lt_or_eq_of_le (Nat.le_of_not_lt hc) with h3 | h3
    · have := magWordUnits_lt f2 f1
        (by omega : (magExp n).toNat * 2 ^ 23 + (magFrac n).toNat < (magExp m).toNat * 2 ^ 23 + (magFrac m).toNat)
      omega
    · have he : (magExp m).toNat = (magExp n).toNat := by omega
      have hf : (magFrac m).toNat = (magFrac n).toNat := by omega
      rw [he, hf] at h
      omega
  · intro h
    exact magWordUnits_lt f1 f2 (by omega)

theorem magWordValue_le_iff {m n : MagWord} : magWordValue m ≤ magWordValue n ↔ m.toNat ≤ n.toNat := by
  rw [← not_lt, magWordValue_lt_iff, not_lt]

end Sys2Proof.Machine
end

