-- ==== Sys2Proof/Laws/Rounding.lean ====
section
/-! SUPPORT. The rounding unit: where a magnitude lies between two neighbouring codes (`rnd_bracket`), and RND's outputs by
its arms. Claims about RND cite these instead of unfolding the circuit. -/

namespace Sys2Proof.Machine

/-- Round-to-nearest-even from the guard and sticky bits: with remainder `r` below `2 * half`, the increment is made
exactly above the midpoint, or at it when `q` is odd. -/
theorem roundUp_of_remainder {q g r half : Nat} {sticky : Bool} (hr : r < 2 * half) (hg : g = r / half)
    (hs : sticky = (r % half != 0)) :
    roundUp q g sticky = q + if half < r ∨ (half = r ∧ q % 2 = 1) then 1 else 0 := by
  have hpos : 0 < half := by omega
  have hq : natBit q 0 = q % 2 := by simp [natBit]
  have key : (g = 1 ∧ (sticky = true ∨ natBit q 0 = 1)) ↔ (half < r ∨ (half = r ∧ q % 2 = 1)) := by
    rw [hq, hg, hs, bne_iff_ne]
    by_cases hlt : r < half
    · have h0 : r / half = 0 := Nat.div_eq_of_lt hlt
      omega
    · have h1 : r / half = 1 := Nat.div_eq_of_lt_le (by omega) (by omega)
      have h2 : r % half = r - half := by rw [Nat.mod_eq_sub_mod (by omega), Nat.mod_eq_of_lt (by omega)]
      omega
  unfold roundUp
  simp only [key]

/-- The next magnitude code's value, in the subnormal range and its first normal binade. -/
theorem magCodeUnits_succ_low {n : Nat} (h : n < 8) : magCodeUnits (n + 1) = magCodeUnits n + 2 ^ 140 := by
  unfold magCodeUnits
  by_cases h7 : n = 7
  · subst h7; norm_num
  · rw [if_pos h, if_pos (by omega)]
    ring

/-- The next magnitude code's value, in the normal range: one step of the binade. -/
theorem magCodeUnits_succ_high {n : Nat} (h : 8 ≤ n) :
    magCodeUnits (n + 1) = magCodeUnits n + 2 ^ (n / 8 + 139) := by
  unfold magCodeUnits
  rw [if_neg (by omega), if_neg (by omega)]
  by_cases h7 : n % 8 = 7
  · have h1 : (n + 1) % 8 = 0 := by omega
    have h2 : (n + 1) / 8 + 139 = (n / 8 + 139) + 1 := by omega
    rw [h7, h1, h2, pow_succ]
    ring
  · have h1 : (n + 1) % 8 = n % 8 + 1 := by omega
    have h2 : (n + 1) / 8 = n / 8 := by omega
    rw [h1, h2]
    ring

theorem magCodeUnits_lt_succ (n : Nat) : magCodeUnits n < magCodeUnits (n + 1) := by
  by_cases h : n < 8
  · rw [magCodeUnits_succ_low h]; exact Nat.lt_add_of_pos_right (by positivity)
  · rw [magCodeUnits_succ_high (by omega)]; exact Nat.lt_add_of_pos_right (by positivity)

/-- The values of magnitude codes rise with the code (R30). -/
theorem magCodeUnits_strictMono : StrictMono magCodeUnits := strictMono_nat_of_lt_succ magCodeUnits_lt_succ

theorem magCodeValue_le_iff {c d : MagCode} : magCodeValue c ≤ magCodeValue d ↔ c.toNat ≤ d.toNat := by
  rw [magCodeValue_eq_units, magCodeValue_eq_units, div_le_div_iff_of_pos_right (by positivity), Nat.cast_le,
    magCodeUnits_strictMono.le_iff_le]

theorem magCodeValue_lt_iff {c d : MagCode} : magCodeValue c < magCodeValue d ↔ c.toNat < d.toNat := by
  rw [← not_le, magCodeValue_le_iff, not_le]

/-- The code RND's circuit computes before its overflow test: `c1` of the normal arm, `c` of the subnormal arm. -/
def rndCode (E F : Nat) : Nat := if 121 ≤ E then rndC1 E F else rndSubC E F

/-- Where a magnitude lies between two neighbouring codes, and which of the two the circuit takes: `q` is the code at or
below it, `2 * half * h` the gap to the next one, `r * h` the distance from `q`. -/
structure RoundBracket (E F q r half h : Nat) : Prop where
  step_pos : 0 < h
  below : r < 2 * half
  value : magWordUnits E F = magCodeUnits q + r * h
  gap : magCodeUnits (q + 1) = magCodeUnits q + 2 * half * h
  code : rndCode E F = q + if half < r ∨ (half = r ∧ q % 2 = 1) then 1 else 0

/-- The normal arm's bracket. -/
theorem rnd_bracket_normal {E F : Nat} (h1 : 121 ≤ E) (hF : F < 2 ^ 23) :
    RoundBracket E F (8 * (E - 120) + F / 2 ^ 20) (F % 2 ^ 20) (2 ^ 19) (2 ^ (E - 1)) := by
  have hq : rndC0 E F = 8 * (E - 120) + F / 2 ^ 20 := by
    unfold rndC0 natCat natSlice; omega
  have hq8 : (8 * (E - 120) + F / 2 ^ 20) / 8 = E - 120 := by omega
  have hqm : (8 * (E - 120) + F / 2 ^ 20) % 8 = F / 2 ^ 20 := by omega
  have hpow : 2 ^ (E - 120 + 139) = 2 ^ 20 * 2 ^ (E - 1) := by
    rw [← pow_add]; exact congrArg (2 ^ ·) (by omega)
  refine ⟨by positivity, by omega, ?_, ?_, ?_⟩
  · unfold magWordUnits magCodeUnits
    rw [if_neg (by omega), if_neg (by omega), hq8, hqm, hpow]
    have : 2 ^ 23 + F = (8 + F / 2 ^ 20) * 2 ^ 20 + F % 2 ^ 20 := by omega
    rw [this]
    ring
  · rw [magCodeUnits_succ_high (by omega), hq8, hpow]
    norm_num
  · unfold rndCode rndC1
    rw [if_pos h1, hq]
    refine roundUp_of_remainder (by omega) ?_ ?_
    · unfold rndGuard natBit; omega
    · have : F / 2 ^ 0 % 2 ^ (18 + 1 - 0) = F % 2 ^ 20 % 2 ^ 19 := by omega
      unfold rndSticky natSlice
      rw [this]

/-- The subnormal arm's bracket. -/
theorem rnd_bracket_subnormal {E F : Nat} (h1 : E ≤ 120) (hF : F < 2 ^ 23) :
    RoundBracket E F (rndQ E F) (rndM E F % 2 ^ rndK E) (2 ^ (rndK E - 1)) (2 ^ (140 - rndK E)) := by
  have hk : 21 ≤ rndK E ∧ rndK E ≤ 140 := by unfold rndK; omega
  have hhalf : 2 * 2 ^ (rndK E - 1) = 2 ^ rndK E := by
    rw [← pow_succ']; exact congrArg (2 ^ ·) (by omega)
  have hq : rndQ E F = rndM E F / 2 ^ rndK E := by unfold rndQ; rw [Nat.shiftRight_eq_div_pow]
  have hM : rndM E F < 2 ^ 24 := by unfold rndM; split <;> omega
  have hq7 : rndQ E F < 8 := by
    rw [hq, Nat.div_lt_iff_lt_mul (by positivity)]
    calc rndM E F < 8 * 2 ^ 21 := by omega
      _ ≤ 8 * 2 ^ rndK E := Nat.mul_le_mul_left 8 (Nat.pow_le_pow_right (by omega) hk.1)
  have hpow : 2 ^ 140 = 2 ^ rndK E * 2 ^ (140 - rndK E) := by
    rw [← pow_add]; exact congrArg (2 ^ ·) (by omega)
  refine ⟨by positivity, ?_, ?_, ?_, ?_⟩
  · rw [hhalf]; exact Nat.mod_lt _ (by positivity)
  · have hval : magWordUnits E F = rndM E F * 2 ^ (140 - rndK E) := by
      unfold magWordUnits rndM rndK
      by_cases h0 : E = 0
      · subst h0; simp
      · rw [if_neg h0, if_pos (by omega), show max E 1 = E by omega, show 140 - (141 - E) = E - 1 by omega]
    have hdiv : rndM E F = rndQ E F * 2 ^ rndK E + rndM E F % 2 ^ rndK E := by
      rw [hq, Nat.mul_comm]; exact (Nat.div_add_mod _ _).symm
    rw [hval, magCodeUnits, if_pos hq7, hpow]
    conv_lhs => rw [hdiv]
    ring
  · rw [magCodeUnits_succ_low hq7, hhalf, hpow]
  · unfold rndCode rndSubC
    rw [if_neg (by omega)]
    refine roundUp_of_remainder ?_ ?_ ?_
    · rw [hhalf]; exact Nat.mod_lt _ (by positivity)
    · unfold rndSubGuard natBit
      rw [Nat.shiftRight_eq_div_pow, pow_zero, Nat.div_one, ← hhalf, Nat.mul_comm 2, Nat.mod_mul_right_div_self]
    · unfold rndSubSticky
      rw [← hhalf, Nat.mod_mul_left_mod]

/-- Every magnitude below 512 has its bracket. -/
theorem rnd_bracket {E F : Nat} (hF : F < 2 ^ 23) : ∃ q r half h, RoundBracket E F q r half h := by
  by_cases h1 : 121 ≤ E
  · exact ⟨_, _, _, _, rnd_bracket_normal h1 hF⟩
  · exact ⟨_, _, _, _, rnd_bracket_subnormal (by omega) hF⟩

/-- The subnormal arm's code is at most 8 (R146). -/
theorem rndSubC_le {E F : Nat} (h1 : E ≤ 120) (hF : F < 2 ^ 23) : rndSubC E F ≤ 8 := by
  have hb := (rnd_bracket_subnormal h1 hF).code
  have hk : 21 ≤ rndK E := by unfold rndK; omega
  have hM : rndM E F < 2 ^ 24 := by unfold rndM; split <;> omega
  have hq7 : rndQ E F < 8 := by
    unfold rndQ
    rw [Nat.shiftRight_eq_div_pow, Nat.div_lt_iff_lt_mul (by positivity)]
    calc rndM E F < 8 * 2 ^ 21 := by omega
      _ ≤ 8 * 2 ^ rndK E := Nat.mul_le_mul_left 8 (Nat.pow_le_pow_right (by omega) hk)
  unfold rndCode at hb
  rw [if_neg (by omega)] at hb
  rw [hb]
  split <;> omega

/-- RND's outputs at a magnitude of 512 or more, exponent field 255 among them (R140, R145). -/
theorem rnd_of_large {mag : MagWord} (h : 136 ≤ (magExp mag).toNat) : rnd mag = ⟨maxMagCode, true, rndBig mag⟩ := by
  unfold rnd
  simp only [if_pos h]

/-- RND's outputs below 512, by the code its circuit computes (R140). -/
theorem rnd_of_small {mag : MagWord} (h : (magExp mag).toNat ≤ 135) :
    rnd mag =
      if 127 ≤ rndCode (magExp mag).toNat (magFrac mag).toNat then ⟨maxMagCode, true, rndBig mag⟩
      else ⟨BitVec.ofNat 7 (rndCode (magExp mag).toNat (magFrac mag).toNat), false, rndBig mag⟩ := by
  unfold rnd rndCode
  simp only [if_neg (show ¬ 136 ≤ (magExp mag).toNat by omega)]
  by_cases h1 : 121 ≤ (magExp mag).toNat
  · simp only [if_pos h1]
  · have := rndSubC_le (show (magExp mag).toNat ≤ 120 by omega) (magFrac mag).isLt
    simp only [if_neg h1, if_neg (show ¬ 127 ≤ rndSubC (magExp mag).toNat (magFrac mag).toNat by omega)]

theorem rnd_big (mag : MagWord) : (rnd mag).big = rndBig mag := by
  unfold rnd
  simp only
  split
  · rfl
  · split
    · split <;> rfl
    · rfl

end Sys2Proof.Machine
end

