-- ==== Sys2Proof/Laws/Blocks.lean ====
section
/-! SUPPORT. DEC and ENC, one lemma per case of their pseudocode (R100, R120). -/

namespace Sys2Proof.Machine

/-- DEC of a NaN code (R100 step 2). -/
theorem dec_of_nan (cfg : Config) {b : Code} (h : codeIsNaN b = true) : dec cfg b = decNan cfg (codeSign b) := by
  unfold dec
  simp only [if_pos ((codeIsNaN_iff_fields b).mp h)]

/-- DEC of any other code, by its class (R100 steps 3 and 4). -/
theorem dec_of_not_nan (cfg : Config) {b : Code} (h : codeIsNaN b = false) :
    dec cfg b =
      if codeExp b = 0#4 ∧ codeMan b = 0#3 then packWord (codeSign b) 0#8 0#23
      else if codeExp b = 0#4 then packWord (codeSign b) (decSubExp (codeMan b)) (decSubFrac (codeMan b))
      else packWord (codeSign b) (BitVec.ofNat 8 ((codeExp b).toNat + 120)) (codeMan b ++ 0#20) := by
  have hn : ¬ (codeExp b = 0b1111#4 ∧ codeMan b = 0b111#3) := by
    rw [← codeIsNaN_iff_fields, h]; exact Bool.false_ne_true
  unfold dec
  simp only [if_neg hn]

/-- DEC of a code that is not NaN looks at no parameter (R106). -/
theorem dec_config_irrelevant (cfg cfg' : Config) {b : Code} (h : codeIsNaN b = false) : dec cfg b = dec cfg' b := by
  rw [dec_of_not_nan cfg h, dec_of_not_nan cfg' h]

/-- Both words of a legal `DEC_NAN` are NaNs (R11). -/
theorem decNan_isNaN {cfg : Config} (h : cfg.legal = true) (s : BitVec 1) : wordIsNaN (decNan cfg s) = true := by
  unfold Config.legal at h
  rw [Bool.and_eq_true] at h
  unfold decNan
  split
  · exact h.1
  · exact h.2

/-- ENC of a NaN, quiet or signalling (R120). -/
theorem enc_of_nan (cfg : Config) {w : Word} (h : wordIsNaN w = true) : enc cfg w = encNan cfg (wordSign w) := by
  unfold wordIsNaN at h
  rw [Bool.and_eq_true, beq_iff_eq, bne_iff_ne] at h
  unfold enc
  rw [if_pos h]

/-- ENC of an infinity (R120). -/
theorem enc_of_inf (cfg : Config) {w : Word} (h : wordIsInf w = true) : enc cfg w = encInf cfg (wordSign w) := by
  unfold wordIsInf at h
  rw [Bool.and_eq_true, beq_iff_eq, beq_iff_eq] at h
  unfold enc
  rw [if_neg (by simp [h.2]), if_pos h.1]

/-- ENC of a finite word (R120). -/
theorem enc_of_finite (cfg : Config) {w : Word} (h : wordIsFinite w = true) : enc cfg w = encFinite cfg w := by
  unfold wordIsFinite at h
  rw [bne_iff_ne] at h
  unfold enc
  rw [if_neg (by simp [h]), if_neg h]

/-- A word is NaN, infinite or finite (R32). -/
theorem word_trichotomy (w : Word) : wordIsNaN w = true ∨ wordIsInf w = true ∨ wordIsFinite w = true := by
  by_cases hE : wordExp w = 0xFF#8
  · by_cases hF : wordFrac w = 0#23
    · exact .inr (.inl (by simp [wordIsInf, hE, hF]))
    · exact .inl (by simp [wordIsNaN, hE, hF])
  · exact .inr (.inr (by simp [wordIsFinite, hE]))

/-- Every NaN code ENC writes is one, with the sign `ENC_NAN_SIGN` asks for (R10). -/
theorem encNan_fields (cfg : Config) (s : BitVec 1) :
    codeMag (encNan cfg s) = 0x7F#7 ∧ codeSign (encNan cfg s) = (if cfg.encNanSign = .copy then s else 0#1) := by
  unfold encNan
  cases cfg.encNanSign <;> simp

/-- The finite case, by the overflow policy (R8, R120). -/
theorem encFinite_eq (cfg : Config) (w : Word) :
    encFinite cfg w =
      if overflowsToNaN cfg.ovfMode (rnd (wordMag w)) = true then encNan cfg (wordSign w)
      else packCode (wordSign w) (rnd (wordMag w)).c := rfl

end Sys2Proof.Machine
end

