-- ==== Sys2Proof/Laws/Encoding.lean ====
section
/-! SUPPORT. The command word's two fields, and what the decoder reads from them. -/

namespace Sys2Proof

open Sys2Proof.Machine

/-- A command word as a number. -/
theorem cmd_toNat (op : BitVec 1) (a : Word) : (op ++ a : Cmd).toNat = op.toNat * 2 ^ 32 + a.toNat :=
  toNat_concat op a

/-- The field `op` of a command word built from its fields. -/
@[simp] theorem extract_op (op : BitVec 1) (a : Word) : (op ++ a : Cmd).extractLsb' 32 1 = op := by
  apply BitVec.eq_of_toNat_eq
  rw [toNat_slice, cmd_toNat]
  have := op.isLt
  have := a.isLt
  omega

/-- The field `a` of a command word built from its fields. -/
@[simp] theorem extract_operand (op : BitVec 1) (a : Word) : (op ++ a : Cmd).extractLsb' 0 32 = a := by
  apply BitVec.eq_of_toNat_eq
  rw [toNat_slice, cmd_toNat]
  have := op.isLt
  have := a.isLt
  omega

/-- A command word is its two fields. -/
theorem cmd_eq_fields (cmd : Cmd) : (cmd.extractLsb' 32 1 ++ cmd.extractLsb' 0 32 : Cmd) = cmd := by
  apply BitVec.eq_of_toNat_eq
  rw [cmd_toNat, toNat_slice, toNat_slice]
  have := cmd.isLt
  omega

/-- The mask test of R65 reads bit 32. -/
theorem mask_eq_iff_bit (cmd : Cmd) : cmd &&& opMask = decodeMatch ↔ cmd.toNat < 2 ^ 32 := by
  rw [← BitVec.toNat_inj, BitVec.toNat_and, show opMask.toNat = 2 ^ 32 from rfl,
    show decodeMatch.toNat = 0 from rfl, Nat.and_two_pow, Nat.testBit_eq_decide_div_mod_eq]
  have := cmd.isLt
  simp
  omega

/-- The mask test of R65 reads the field `op`. -/
theorem mask_eq_iff_op (op : BitVec 1) (a : Word) : (op ++ a : Cmd) &&& opMask = decodeMatch ↔ op = 0#1 := by
  rw [mask_eq_iff_bit, cmd_toNat]
  have := a.isLt
  rcases bit_cases op with rfl | rfl
  · simp
    omega
  · simp

/-- What the decoder reads from a command word's fields (R65). -/
theorem decodeCmd_fields (op : BitVec 1) (a : Word) :
    decodeCmd (op ++ a) = if op = 0#1 then .decode a else .encode a := by
  unfold decodeCmd
  simp only [mask_eq_iff_op, extract_operand]

/-- A number below 2^33 is decoded as the command word it is. -/
theorem decodeTableWord_of_lt {n w : Nat} (h : w < 2 ^ 33) :
    decodeTableWord n w = some (decodeCmd (BitVec.ofNat 33 w)) := by
  unfold decodeTableWord decodeBits
  rw [if_pos h]

/-- A number with a bit above bit 32 is no command word (R64, R72). -/
theorem decodeTableWord_of_ge {n w : Nat} (h : 2 ^ 33 ≤ w) : decodeTableWord n w = none := by
  unfold decodeTableWord decodeBits
  rw [if_neg (by omega)]

end Sys2Proof
end

