-- ==== Sys2Proof/Laws/Host.lean ====
section
/-! SUPPORT. The host's side: hex literals and host variables. -/

namespace Sys2Proof.Machine

theorem hexVal_hexChar : ∀ d < 16, hexVal (hexChar d) = some d := by decide

theorem hexDigits_length (n v : Nat) : (hexDigits n v).length = n := by
  induction n with
  | zero => rfl
  | succ n ih => simp [hexDigits, ih]

/-- Reading the digits of a number gives its low digits after those before them. -/
theorem readHex_hexDigits (n v acc : Nat) : readHex (hexDigits n v) acc = some (acc * 16 ^ n + v % 16 ^ n) := by
  induction n generalizing acc with
  | zero => simp [hexDigits, readHex, Nat.mod_one]
  | succ n ih =>
    simp only [hexDigits, readHex, hexVal_hexChar _ (Nat.mod_lt _ (by decide : 16 > 0))]
    rw [ih, Nat.pow_succ, Nat.mod_mul]
    congr 1
    ring

theorem hostGet_hostSet (vars : HostVars) (n : Nat) (v : Word) (m : Nat) :
    hostGet (hostSet vars n v) m = if m = n then some v else hostGet vars m := by
  unfold hostGet hostSet
  by_cases h : m = n
  · simp [h]
  · rw [List.lookup_cons, beq_false_of_ne h, if_neg h]

end Sys2Proof.Machine
end

