-- ==== Sys2Proof/Laws/State.lean ====
section
/-! SUPPORT. One lemma per field of the state per shared update, each true by unfolding the update once. -/

namespace Sys2Proof.Machine

@[simp] theorem shiftEdge_cfg (s : State) (st : Stage) : (shiftEdge s st).cfg = s.cfg := rfl
@[simp] theorem shiftEdge_pipe (s : State) (st : Stage) : (shiftEdge s st).pipe = (st :: s.pipe).dropLast := rfl
@[simp] theorem shiftEdge_rsp (s : State) (st : Stage) : (shiftEdge s st).rsp = portOut s.cfg (lastStage s st) := rfl
@[simp] theorem shiftEdge_port (s : State) (st : Stage) : (shiftEdge s st).port = s.port := rfl
@[simp] theorem shiftEdge_upcoming (s : State) (st : Stage) : (shiftEdge s st).upcoming = s.upcoming := rfl
@[simp] theorem shiftEdge_freeCtr (s : State) (st : Stage) : (shiftEdge s st).freeCtr = s.freeCtr := rfl

@[simp] theorem resetEdgeState_cfg (s : State) : (resetEdgeState s).cfg = s.cfg := rfl
@[simp] theorem resetEdgeState_pipe (s : State) :
    (resetEdgeState s).pipe = clearedStages s.cfg.latency s.freeCtr := rfl
@[simp] theorem resetEdgeState_rsp (s : State) : (resetEdgeState s).rsp = responseNow s := rfl
@[simp] theorem resetEdgeState_port (s : State) : (resetEdgeState s).port = s.port := rfl
@[simp] theorem resetEdgeState_upcoming (s : State) : (resetEdgeState s).upcoming = s.upcoming := rfl
@[simp] theorem resetEdgeState_freeCtr (s : State) : (resetEdgeState s).freeCtr = s.freeCtr + 1 := rfl

@[simp] theorem powerCycle_cfg (s : State) : s.powerCycle.cfg = s.cfg := rfl
@[simp] theorem powerCycle_pipe (s : State) : s.powerCycle.pipe = powerUpStages s.cfg.latency s.freeCtr := rfl
@[simp] theorem powerCycle_rsp (s : State) : s.powerCycle.rsp = { valid := false, y := none } := rfl
@[simp] theorem powerCycle_port (s : State) : s.powerCycle.port = s.port := rfl
@[simp] theorem powerCycle_upcoming (s : State) : s.powerCycle.upcoming = s.upcoming := rfl
@[simp] theorem powerCycle_freeCtr (s : State) : s.powerCycle.freeCtr = s.freeCtr + 1 := rfl

@[simp] theorem nextInputs_cfg (s : State) : (nextInputs s).cfg = s.cfg := by unfold nextInputs; split <;> rfl
@[simp] theorem nextInputs_pipe (s : State) : (nextInputs s).pipe = s.pipe := by unfold nextInputs; split <;> rfl
@[simp] theorem nextInputs_rsp (s : State) : (nextInputs s).rsp = s.rsp := by unfold nextInputs; split <;> rfl
@[simp] theorem nextInputs_freeCtr (s : State) : (nextInputs s).freeCtr = s.freeCtr := by
  unfold nextInputs; split <;> rfl

/-- The pins after a cycle: the host's next ones, or the held ones when it has listed none. -/
theorem nextInputs_port (s : State) : (nextInputs s).port = s.upcoming.headD s.port.hold := by
  unfold nextInputs; split <;> simp [*]

theorem nextInputs_upcoming (s : State) : (nextInputs s).upcoming = s.upcoming.tail := by
  unfold nextInputs; split <;> simp [*]

@[simp] theorem withFetchWord_cfg (s : State) (n w : Nat) : (s.withFetchWord n w).cfg = s.cfg := rfl
@[simp] theorem withFetchWord_pipe (s : State) (n w : Nat) : (s.withFetchWord n w).pipe = s.pipe := rfl
@[simp] theorem withFetchWord_rsp (s : State) (n w : Nat) : (s.withFetchWord n w).rsp = s.rsp := rfl
@[simp] theorem withFetchWord_port (s : State) (n w : Nat) :
    (s.withFetchWord n w).port = presentCmd s.port w := rfl
@[simp] theorem withFetchWord_upcoming (s : State) (n w : Nat) : (s.withFetchWord n w).upcoming = s.upcoming := rfl
@[simp] theorem withFetchWord_freeCtr (s : State) (n w : Nat) : (s.withFetchWord n w).freeCtr = s.freeCtr := rfl

@[simp] theorem resetWith_cfg (cfg : Config) : (State.resetWith cfg).cfg = cfg := rfl
@[simp] theorem resetWith_pipe (cfg : Config) : (State.resetWith cfg).pipe = clearedStages cfg.latency 0 := rfl
@[simp] theorem resetWith_rsp (cfg : Config) : (State.resetWith cfg).rsp = { valid := false, y := none } := rfl
@[simp] theorem resetWith_port (cfg : Config) : (State.resetWith cfg).port = PortIn.quiet := rfl
@[simp] theorem resetWith_upcoming (cfg : Config) : (State.resetWith cfg).upcoming = [] := rfl
@[simp] theorem resetWith_freeCtr (cfg : Config) : (State.resetWith cfg).freeCtr = 1 := rfl

@[simp] theorem driveRequest_cfg (op : BitVec 1) (a : Word) (s : State) : (driveRequest op a s).cfg = s.cfg := rfl
@[simp] theorem driveRequest_pipe (op : BitVec 1) (a : Word) (s : State) : (driveRequest op a s).pipe = s.pipe := rfl
@[simp] theorem driveRequest_freeCtr (op : BitVec 1) (a : Word) (s : State) :
    (driveRequest op a s).freeCtr = s.freeCtr := rfl
@[simp] theorem driveRequest_reqOp (op : BitVec 1) (a : Word) (s : State) :
    (driveRequest op a s).port.reqOp = op := rfl
@[simp] theorem driveRequest_reqA (op : BitVec 1) (a : Word) (s : State) :
    (driveRequest op a s).port.reqA = a := rfl
@[simp] theorem driveRequest_reqValid (op : BitVec 1) (a : Word) (s : State) :
    (driveRequest op a s).port.reqValid = true := rfl
@[simp] theorem driveRequest_rst (op : BitVec 1) (a : Word) (s : State) :
    (driveRequest op a s).port.rst = false := rfl

@[simp] theorem hold_rst (p : PortIn) : p.hold.rst = false := rfl
@[simp] theorem hold_reqValid (p : PortIn) : p.hold.reqValid = false := rfl
@[simp] theorem hold_readY (p : PortIn) : p.hold.readY = false := rfl
@[simp] theorem hold_reqOp (p : PortIn) : p.hold.reqOp = p.reqOp := rfl
@[simp] theorem hold_reqA (p : PortIn) : p.hold.reqA = p.reqA := rfl

@[simp] theorem presentCmd_rst (p : PortIn) (w : Nat) : (presentCmd p w).rst = false := rfl
@[simp] theorem presentCmd_reqValid (p : PortIn) (w : Nat) : (presentCmd p w).reqValid = true := rfl
@[simp] theorem presentCmd_readY (p : PortIn) (w : Nat) : (presentCmd p w).readY = p.readY := rfl

end Sys2Proof.Machine
end

