-- ==== Sys2Proof/Laws/Ops.lean ====
section
/-! SUPPORT. The shared operations of a cycle: what each can answer, said once. -/

namespace Sys2Proof.Machine

/-- A next state comes only from a legal configuration, and is the one meant. -/
theorem underLegalConfig_eq_next {s t u : State} :
    underLegalConfig s t = .next u ↔ s.cfg.legal = true ∧ u = t := by
  unfold underLegalConfig
  split
  · simp [*, eq_comm]
  · simp [*]

theorem underLegalConfig_of_legal {s : State} (t : State) (h : s.cfg.legal = true) :
    underLegalConfig s t = .next t := by
  simp [underLegalConfig, h]

theorem underLegalConfig_of_illegal {s : State} (t : State) (h : s.cfg.legal = false) :
    underLegalConfig s t = .refused .illegalConfig := by
  simp [underLegalConfig, h]

/-- A request's cycle under a legal configuration. -/
theorem present_of_legal {s : State} (y : Word) (h : s.cfg.legal = true) :
    present y s = .next (shiftEdge s { valid := true, data := y }) := underLegalConfig_of_legal _ h

/-- The response port holds a value with `LATENCY` = 0, and otherwise exactly in a valid cycle (R206). -/
theorem portOut_isSome (cfg : Config) (st : Stage) :
    (portOut cfg st).y.isSome = true ↔ cfg.latency = 0 ∨ st.valid = true := by
  unfold portOut
  by_cases h : cfg.latency = 0 ∨ st.valid = true <;> simp [h]

@[simp] theorem portOut_valid (cfg : Config) (st : Stage) : (portOut cfg st).valid = st.valid := rfl

/-- What a valid response shows. -/
theorem portOut_of_valid (cfg : Config) (y : Word) : portOut cfg ⟨true, y⟩ = ⟨true, some y⟩ := by
  simp [portOut]

/-- The host's read goes through exactly where the port holds a value, and changes nothing. -/
theorem hostRead_of_value {t : State} (h : t.port.readY = true → t.rsp.y.isSome = true) : hostRead t = .next t := by
  unfold hostRead
  split
  · next h1 h2 => simp [h1, h2] at h
  · rfl

theorem hostRead_of_no_value {t : State} (h1 : t.port.readY = true) (h2 : t.rsp.y = none) :
    hostRead t = .fault .rspYHoldsNoValue := by
  simp [hostRead, h1, h2]

@[simp] theorem clearedStages_length (n k : Nat) : (clearedStages n k).length = n := by simp [clearedStages]

@[simp] theorem powerUpStages_length (n k : Nat) : (powerUpStages n k).length = n := by simp [powerUpStages]

/-- No stage is valid after a reset edge (R230). -/
theorem clearedStages_invalid {n k : Nat} {st : Stage} (h : st ∈ clearedStages n k) : st.valid = false := by
  simp only [clearedStages, List.mem_map] at h
  obtain ⟨_, _, rfl⟩ := h
  rfl

/-- A shift keeps the number of stages. -/
@[simp] theorem shift_length (st : Stage) (l : List Stage) : (st :: l).dropLast.length = l.length := by simp

/-- A stage after a shift is the new one or one that was there. -/
theorem mem_shift {st st0 : Stage} {l : List Stage} (h : st ∈ (st0 :: l).dropLast) : st = st0 ∨ st ∈ l := by
  simpa using List.dropLast_subset _ h

/-- The stage the response port shows is stage 0 or one of the registers. -/
theorem lastStage_mem (s : State) (st0 : Stage) : lastStage s st0 = st0 ∨ lastStage s st0 ∈ s.pipe := by
  unfold lastStage
  rcases h : s.pipe.getLast? with _ | x
  · simp [List.getLastD_eq_getLast?, h]
  · right
    simp only [List.getLastD_eq_getLast?, h, Option.getD_some]
    exact List.mem_of_getLast? h

/-- The meaning of the presented command word is a request's cycle with its `core(op, a)` (R69). -/
theorem exec_fetched (s : State) :
    exec (decodeCmd (fetchCmd s)) s = present (coreResult s.cfg s.port.reqOp s.port.reqA) s := by
  unfold fetchCmd coreResult
  rw [decodeCmd_fields]
  split <;> rfl

end Sys2Proof.Machine
end

