-- ==== Sys2Proof/Laws/PerInstr.lean ====
section
/-! SUPPORT. Statements about every instruction as data, one lemma per constructor. -/

namespace Sys2Proof.Laws.CommandFields

/-- The command word of a request holds its `op` and its operand in the fields of R64, and the request is well formed. -/
def Statement (i : Instr) : Prop :=
  (encodeCmd i).extractLsb' 32 1 = i.op ∧ (encodeCmd i).extractLsb' 0 32 = i.operand ∧ i.wellFormed = true

theorem decode (a : Word) : Statement (.decode a) := ⟨extract_op _ _, extract_operand _ _, rfl⟩

theorem encode (w : Word) : Statement (.encode w) := ⟨extract_op _ _, extract_operand _ _, rfl⟩

end Sys2Proof.Laws.CommandFields
end

