-- ==== Sys2Proof/Laws/Step.lean ====
section
/-! SUPPORT. The step, said once: under which conditions it answers which of its three outcomes, and the next state. -/

namespace Sys2Proof.Machine

/-- The state after the clock edge of a cycle: a reset edge, or the shift by what the request port feeds in. -/
def edgeState (s : State) : State :=
  if resetActive s = true then resetEdgeState s else shiftEdge s (stageOf s.cfg s.port)

@[simp] theorem edgeState_cfg (s : State) : (edgeState s).cfg = s.cfg := by unfold edgeState; split <;> rfl
@[simp] theorem edgeState_port (s : State) : (edgeState s).port = s.port := by unfold edgeState; split <;> rfl
@[simp] theorem edgeState_upcoming (s : State) : (edgeState s).upcoming = s.upcoming := by
  unfold edgeState; split <;> rfl
@[simp] theorem edgeState_rsp (s : State) : (edgeState s).rsp = responseNow s := by unfold edgeState; split <;> rfl

theorem edgeState_of_reset {s : State} (h : resetActive s = true) : edgeState s = resetEdgeState s := by
  simp [edgeState, h]

theorem edgeState_of_no_reset {s : State} (h : resetActive s = false) :
    edgeState s = shiftEdge s (stageOf s.cfg s.port) := by
  simp [edgeState, h]

/-- Every cycle is its clock edge, unless the configuration names no hardware. -/
theorem runCycle_eq (s : State) : runCycle s = underLegalConfig s (edgeState s) := by
  unfold runCycle edgeState
  split
  · rfl
  · split
    · next h => rw [exec_fetched]; simp only [stageOf, h]; rfl
    · next h => rw [Bool.not_eq_true] at h; simp only [stageOf, h]; rfl

theorem step_of_illegal {s : State} (h : s.cfg.legal = false) : step s = .refused .illegalConfig := by
  unfold step runCycleAndAdvance
  rw [runCycle_eq, underLegalConfig_of_illegal _ h]
  rfl

/-- A safe cycle's step. -/
theorem step_of_safe {s : State} (h : SafeCycle s) : step s = .next (nextInputs (edgeState s)) := by
  unfold step runCycleAndAdvance
  rw [runCycle_eq, underLegalConfig_of_legal _ h.1]
  have := hostRead_of_value (t := edgeState s) (by simpa [ReadsAValue] using h.2)
  simp only [andThen, this]

/-- A read of a port that holds no value (R206). -/
theorem step_of_bad_read {s : State} (hl : s.cfg.legal = true) (h1 : s.port.readY = true)
    (h2 : (responseNow s).y = none) : step s = .fault .rspYHoldsNoValue := by
  unfold step runCycleAndAdvance
  rw [runCycle_eq, underLegalConfig_of_legal _ hl]
  have := hostRead_of_no_value (t := edgeState s) (by simpa using h1) (by simpa using h2)
  simp only [andThen, this]

/-- What a cycle can do: the one lemma the claims about a step cite. -/
theorem step_cases (s : State) :
    (s.cfg.legal = false ∧ step s = .refused .illegalConfig) ∨
    (s.cfg.legal = true ∧ s.port.readY = true ∧ (responseNow s).y = none ∧ step s = .fault .rspYHoldsNoValue) ∨
    (SafeCycle s ∧ step s = .next (nextInputs (edgeState s))) := by
  cases hl : s.cfg.legal
  · exact .inl ⟨rfl, step_of_illegal hl⟩
  · by_cases hr : ReadsAValue s
    · exact .inr (.inr ⟨⟨hl, hr⟩, step_of_safe ⟨hl, hr⟩⟩)
    · unfold ReadsAValue at hr
      rw [Classical.not_imp] at hr
      have h2 : (responseNow s).y = none := by simpa using hr.2
      exact .inr (.inl ⟨rfl, hr.1, h2, step_of_bad_read hl hr.1 h2⟩)

/-- A step's next state. -/
theorem step_next {s t : State} (h : step s = .next t) : SafeCycle s ∧ t = nextInputs (edgeState s) := by
  rcases step_cases s with ⟨_, h'⟩ | ⟨_, _, _, h'⟩ | ⟨hs, h'⟩
  · rw [h] at h'; cases h'
  · rw [h] at h'; cases h'
  · rw [h] at h'; cases h'; exact ⟨hs, rfl⟩

/-- With no read the host's duty is kept. -/
theorem safeCycle_of_no_read {s : State} (hl : s.cfg.legal = true) (h : s.port.readY = false) : SafeCycle s :=
  ⟨hl, by simp [ReadsAValue, h]⟩

/-- With `LATENCY` = 0 every read has a value (R69, R234). -/
theorem safeCycle_of_combinational {s : State} (hl : s.cfg.legal = true) (h : s.cfg.latency = 0) : SafeCycle s :=
  ⟨hl, fun _ => by simp [responseNow, portOut_isSome, h]⟩

/-- One more cycle of a run. -/
theorem runCycles_succ {n : Nat} {s t : State} (h : step s = .next t) : runCycles (n + 1) s = runCycles n t := by
  unfold runCycles
  rw [h]
  cases n <;> rfl

theorem runCycles_zero (s : State) : runCycles 0 s = .next s := rfl

theorem responsesOver_succ {n : Nat} {s t : State} (h : step s = .next t) :
    responsesOver (n + 1) s = t.rsp :: responsesOver n t := by
  simp only [responsesOver, h]

/-- A run of one more cycle is a step and the run after it. -/
theorem runCycles_succ_next {n : Nat} {s t : State} (h : runCycles (n + 1) s = .next t) :
    ∃ u, step s = .next u ∧ runCycles n u = .next t := by
  cases hs : step s with
  | next u => exact ⟨u, rfl, by rw [← runCycles_succ hs, h]⟩
  | fault e => simp [runCycles, andThen, hs] at h
  | refused e => simp [runCycles, andThen, hs] at h

/-- A cycle keeps the number of stages. -/
theorem pipeLength_next {s : State} (h : PipeLength s) : PipeLength (nextInputs (edgeState s)) := by
  unfold PipeLength at *
  unfold edgeState
  split
  · simp
  · simp [h]

/-- The pins of coming cycles depend only on what the host drives. -/
theorem pinsOver_congr (n : Nat) {s t : State} (hp : s.port = t.port) (hu : s.upcoming = t.upcoming) :
    pinsOver n s = pinsOver n t := by
  induction n generalizing s t with
  | zero => rfl
  | succ n ih =>
    unfold pinsOver
    rw [hp, ih (s := nextInputs s) (t := nextInputs t) (by rw [nextInputs_port, nextInputs_port, hp, hu])
      (by rw [nextInputs_upcoming, nextInputs_upcoming, hu])]

/-- A cycle of the CORE does not change the pins of the cycles after it. -/
theorem pinsOver_next (n : Nat) (s : State) : pinsOver n (nextInputs (edgeState s)) = pinsOver n (nextInputs s) :=
  pinsOver_congr n (by rw [nextInputs_port, nextInputs_port]; simp)
    (by rw [nextInputs_upcoming, nextInputs_upcoming]; simp)

/-- The stage the response port shows, where there are registers. -/
theorem lastStage_append {s : State} {rest : List Stage} {last st : Stage} (h : s.pipe = rest ++ [last]) :
    lastStage s st = last := by
  simp [lastStage, h]

end Sys2Proof.Machine
end

