-- ==== Sys2Proof/Tests/Slice0.lean ====
section
/-! SUPPORT. Tests: the expected values are those of spec/95_test_vectors.md (V-SRC, V-DEC, V-ENC, V-RND, V-CMD, P1 to P4) or
are worked out from the rules named. Then, for each statement with hypotheses, a witness that meets them. -/

namespace Sys2Proof.Tests

open Sys2Proof.Machine

/-! ## The checks refuse what they must -/

/-- R11, R206: a `DEC_NAN(0)` that is no NaN (zero) is refused. -/
theorem test_legal_refuses_positive_zero : ({ Config.default with decNanPos := 0x00000000#32 } : Config).legal = false := by
  decide

/-- R11, R206: a `DEC_NAN(1)` that is an infinity is refused. -/
theorem test_legal_refuses_negative_infinity :
    ({ Config.default with decNanNeg := 0xFF800000#32 } : Config).legal = false := by decide

/-- R11, R33: the default is legal and quiet. -/
theorem test_default_legal_and_quiet :
    Config.default.legal = true ∧ wordIsQuietNaN Config.default.decNanPos = true ∧
      wordIsQuietNaN Config.default.decNanNeg = true := by decide

/-- R206: a step under an illegal configuration is refused by name. -/
theorem test_step_refuses_illegal_configuration :
    (match step (State.resetWith { Config.default with decNanPos := 0x7F800000#32 }) with
      | .refused r => decide (r = .illegalConfig)
      | _ => false) = true := by decide

/-- R74: DECODE with a bit of `req_a[31:8]` set has no assembler form. -/
theorem test_writable_refuses_ignored_bits : Instr.writable (.decode 0x00000138#32) = false := by decide

/-- R64: a number with bit 33 set is no command word. -/
theorem test_decode_refuses_bit_33 : decodeTableWord 40 0x200000000 = none := by decide

/-! ## Encodings, written out bit by bit from R64 and R65 -/

/-- V-CMD `0:00000038`: op 0, then the operand 0000 0000 0000 0000 0000 0000 0011 1000. -/
theorem test_decode_word_of_decode :
    decodeCmd 0b0_00000000000000000000000000111000#33 = .decode 0x38#32 := by decide

/-- V-CMD `1:BF800000`: op 1, s 1, E 0111 1111, F 0. -/
theorem test_decode_word_of_encode :
    decodeCmd 0b1_1_01111111_00000000000000000000000#33 = .encode 0xBF800000#32 := by decide

/-- R64: the encoder writes `{op, a}`. -/
theorem test_encode_words :
    encodeCmd (.decode 0xFFFFFF38#32) = 0x0FFFFFF38#33 ∧ encodeCmd (.encode 0x3F800000#32) = 0x13F800000#33 := by decide

/-- R74: the two assembler forms. -/
theorem test_assemble :
    assemble "DECODE 0x38".toList = some (.decode 0x38#32) ∧
      assemble "ENCODE 0x3F800000".toList = some (.encode 0x3F800000#32) ∧
      assemble "DECODE 0x138".toList = none ∧ assemble "ROUND 0x38".toList = none := by decide

/-! ## The blocks -/

/-- V-DEC: zeros, the ends of the subnormal and normal ranges, 1.0, the codes beside NaN, and NaN. -/
theorem test_dec_vectors :
    [0x00#8, 0x80#8, 0x01#8, 0x03#8, 0x07#8, 0x08#8, 0x38#8, 0x87#8, 0x78#8, 0x7E#8, 0xFE#8, 0x7F#8, 0xFF#8].map
      (dec Config.default) =
    [0x00000000#32, 0x80000000#32, 0x3B000000#32, 0x3BC00000#32, 0x3C600000#32, 0x3C800000#32, 0x3F800000#32,
      0xBC600000#32, 0x43800000#32, 0x43E00000#32, 0xC3E00000#32, 0x7FF00000#32, 0xFFF00000#32] := by decide

/-- V-ENC, column "default". -/
theorem test_enc_vectors :
    [0x80000000#32, 0x80000001#32, 0x3A800000#32, 0xBA800001#32, 0x3B400000#32, 0x3C700000#32, 0x3F880001#32,
      0x3FF80000#32, 0x3DCCCCCD#32, 0x40490FDB#32, 0x43E80000#32, 0x43E80001#32, 0xC3F00000#32, 0x7F800000#32,
      0xFF800000#32, 0x7F800001#32, 0xFFFFFFFF#32].map (enc Config.default) =
    [0x80#8, 0x80#8, 0x00#8, 0x81#8, 0x02#8, 0x08#8, 0x39#8, 0x40#8, 0x1D#8, 0x45#8, 0x7E#8, 0x7F#8, 0xFF#8, 0x7F#8,
      0xFF#8, 0x7F#8, 0xFF#8] := by decide

/-- V-ENC, the other columns, at the rows where they differ from the default. -/
theorem test_enc_policies :
    enc { Config.default with ovfMode := .sat } 0xC3F00000#32 = 0xFE#8 ∧
      enc { Config.default with ovfMode := .nanStrict } 0x43E00001#32 = 0x7F#8 ∧
      enc { Config.default with infMode := .sat } 0xFF800000#32 = 0xFE#8 ∧
      enc { Config.default with encNanSign := .positive } 0xFFC00000#32 = 0x7F#8 := by decide

/-- V-RND: ties, both overflow edges, and exponent field 255. -/
theorem test_rnd_vectors :
    [0x3A800000#31, 0x3A800001#31, 0x3C7FFFFF#31, 0x3F8C0000#31, 0x43E00001#31, 0x43E80000#31, 0x43E80001#31,
      0x7F800000#31].map rnd =
    [⟨0x00#7, false, false⟩, ⟨0x01#7, false, false⟩, ⟨0x08#7, false, false⟩, ⟨0x39#7, false, false⟩,
      ⟨0x7E#7, false, true⟩, ⟨0x7E#7, false, true⟩, ⟨0x7E#7, true, true⟩, ⟨0x7E#7, true, true⟩] := by decide

/-! ## Steps -/

/-- The default configuration with a latency. -/
def withLatency (n : Nat) : Config := { Config.default with latency := n }

/-- The pins of a request. -/
def request (op : BitVec 1) (a : Word) : PortIn := { PortIn.quiet with reqValid := true, reqOp := op, reqA := a }

/-- A state with a configuration, stages and pins. -/
def stateOf (cfg : Config) (pipe : List Stage) (port : PortIn) (upcoming : List PortIn) : State :=
  { State.resetWith cfg with pipe := pipe, port := port, upcoming := upcoming }

/-- P4, cycle 3: `LATENCY` = 2, the ENCODE result in stage 2 and the DECODE result in stage 1. -/
def p4Cycle3 : State :=
  stateOf (withLatency 2) [⟨true, 0xFFF00000#32⟩, ⟨true, 0x00000038#32⟩] PortIn.quiet [request 0#1 0x38#32]

/-- A full pipeline, a request on the port and a reset in the same cycle. -/
def resetWhileBusy : State :=
  { p4Cycle3 with port := { request 1#1 0x3F800000#32 with rst := true } }

/-- An empty pipeline and a read of `rsp_y`. -/
def readsNothing : State :=
  stateOf (withLatency 1) [⟨false, 0#32⟩] { PortIn.quiet with readY := true } []

/-- A test on the next state, false where there is none. -/
def nextMeets (r : Host.Outcome State Fault Refusal) (p : State → Bool) : Bool :=
  match r with
  | .next t => p t
  | .fault _ => false
  | .refused _ => false

/-- V-CMD `0:FFFFFF38` as the first request after reset: 1.0 in the same cycle. -/
theorem test_step_decode_after_reset :
    nextMeets (step (State.reset.withFetchWord 40 0x0FFFFFF38)) (fun t => t.rsp = ⟨true, some 0x3F800000#32⟩) = true := by
  decide

/-- V-CMD `1:FF800000` as the first request after reset: the NaN code with its sign, zero-extended. -/
theorem test_step_encode_after_reset :
    nextMeets (step (State.reset.withFetchWord 40 0x1FF800000)) (fun t => t.rsp = ⟨true, some 0x000000FF#32⟩) = true := by
  decide

/-- P4, cycle 3: the response is 0x38, the DECODE result moves to stage 2, and the next request reaches the port. -/
theorem test_step_pipeline :
    nextMeets (step p4Cycle3) (fun t => t.rsp = ⟨true, some 0x38#32⟩ ∧ t.pipe = [⟨false, 0#32⟩, ⟨true, 0xFFF00000#32⟩] ∧
      t.port = request 0#1 0x38#32 ∧ t.upcoming = []) = true := by decide

/-- R230: `rst` with a full pipeline still shows the response of its cycle, and leaves no valid stage. -/
theorem test_step_reset :
    nextMeets (step resetWhileBusy) (fun t => t.rsp = ⟨true, some 0x38#32⟩ ∧ t.pipe.length = 2 ∧
      (t.pipe.map Stage.valid = [false, false])) = true := by decide

/-- R206: a read of `rsp_y` in a cycle with `rsp_valid` = 0 faults. -/
theorem test_step_read_fault :
    (match step readsNothing with
      | .fault f => decide (f = .rspYHoldsNoValue)
      | _ => false) = true := by decide

/-- P2 steps 1 and 2: QUANT of 0.1 is 0.1015625. -/
theorem test_quant :
    (runStmt (.quant 2 0) ([(0, 0x3DCCCCCD#32)], State.reset)).map (fun h => hostGet h.1 2) = some (some 0x3DD00000#32) := by
  decide

/-! ## Witnesses: what meets the hypotheses of the statements -/

theorem witness_OpcodeMap :
    (0x0FFFFFFFF#33).getLsbD 32 = false ∧ (0x100000000#33).getLsbD 32 = true := by decide

theorem witness_EveryCommandWordIsOneRequest : 2 ^ 33 - 1 < 2 ^ 33 ∧ 2 ^ 33 ≤ 2 ^ 33 ∧
    (encodeCmd (.encode 0xFFFFFFFF#32)).toNat = 2 ^ 33 - 1 := by decide

theorem witness_DecodeOfEncode :
    Instr.wellFormed (.decode 0xFFFFFFFF#32) = true ∧ Instr.wellFormed (.encode 0#32) = true := by decide

theorem witness_AssemblerRoundTrip :
    Instr.writable (.decode 0xFF#32) = true ∧ Instr.writable (.encode 0xFFFFFFFF#32) = true := by decide

/-- The value of a positive code, by its steps of 2^-149. -/
theorem val8_positive {b : Code} {q : ℚ} (h : codeIsNaN b = false) (hs : codeSign b = 0#1)
    (hq : (magCodeUnits (codeMag b).toNat : ℚ) / 2 ^ 149 = q) : val8 b = some q := by
  rw [val8_of_not_nan h, hs, magCodeValue_eq_units, hq]
  simp [signFactor]

/-- The value of a magnitude word, by its steps of 2^-149. -/
theorem magWordValue_of_fields {m : MagWord} {E F : Nat} {q : ℚ} (hE : (magExp m).toNat = E) (hF : (magFrac m).toNat = F)
    (hq : (magWordUnits E F : ℚ) / 2 ^ 149 = q) : magWordValue m = q := by
  rw [magWordValue_eq_units, hE, hF, hq]

/-- The value of a magnitude code, by its steps of 2^-149. -/
theorem magCodeValue_of_toNat {c : MagCode} {n : Nat} {q : ℚ} (hc : c.toNat = n)
    (hq : (magCodeUnits n : ℚ) / 2 ^ 149 = q) : magCodeValue c = q := by
  rw [magCodeValue_eq_units, hc, hq]

/-- The value of a finite word, by its magnitude word. -/
theorem val32_of_mag {w : Word} {q : ℚ} (h : wordIsFinite w = true) (hq : magWordValue (wordMag w) = q) :
    val32 w = some (signFactor (wordSign w) * q) := by
  rw [val32_of_finite h, hq]

theorem word448 : magWordValue 0x43E00000#31 = 448 :=
  magWordValue_of_fields (E := 135) (F := 0x600000) rfl rfl (by norm_num [magWordUnits])
theorem word464 : magWordValue 0x43E80000#31 = 464 :=
  magWordValue_of_fields (E := 135) (F := 0x680000) rfl rfl (by norm_num [magWordUnits])
theorem word480 : magWordValue 0x43F00000#31 = 480 :=
  magWordValue_of_fields (E := 135) (F := 0x700000) rfl rfl (by norm_num [magWordUnits])

theorem code_value_ends :
    val8 0x01#8 = some (1 / 2 ^ 9) ∧ val8 0x07#8 = some (7 / 2 ^ 9) ∧ val8 0x08#8 = some (1 / 2 ^ 6) ∧
      val8 0x7E#8 = some 448 :=
  ⟨val8_positive rfl rfl (by norm_num [codeMag, magCodeUnits]), val8_positive rfl rfl (by norm_num [codeMag, magCodeUnits]),
    val8_positive rfl rfl (by norm_num [codeMag, magCodeUnits]), val8_positive rfl rfl (by norm_num [codeMag, magCodeUnits])⟩

/-- Each clause at a boundary code: 0x08, 0x07, 0x01 and 0x7E. -/
theorem witness_FormatConstants :
    (codeClass 0x08#8 = .normal ∧ val8 0x08#8 = some (1 / 2 ^ 6)) ∧
      (codeClass 0x07#8 = .subnormal ∧ val8 0x07#8 = some (7 / 2 ^ 9)) ∧
      (val8 0x01#8 = some (1 / 2 ^ 9) ∧ (1 / 2 ^ 9 : ℚ) ≠ 0) ∧ val8 0x7E#8 = some 448 :=
  ⟨⟨by decide, code_value_ends.2.2.1⟩, ⟨by decide, code_value_ends.2.1⟩, ⟨code_value_ends.1, by norm_num⟩,
    code_value_ends.2.2.2⟩

theorem witness_MagnitudeCodeOrder :
    ((8#7).toNat ≤ 0x7E ∧ (8#7).toNat = (7#7).toNat + 1 ∧ (7#7).toNat < 8) ∧
      ((0x7E#7).toNat ≤ 0x7E ∧ (0x7E#7).toNat = (0x7D#7).toNat + 1 ∧ 8 ≤ (0x7D#7).toNat) ∧
      ((9#7).toNat = (8#7).toNat + 1 ∧ 8 ≤ (8#7).toNat) := by decide

theorem witness_MagnitudeWordOrder :
    val32 0xC3E00000#32 = some (signFactor 1#1 * 448) ∧ val32 0x43E80000#32 = some (signFactor 0#1 * 464) :=
  ⟨val32_of_mag rfl word448, val32_of_mag rfl word464⟩

theorem witness_DecodeExact :
    codeIsNaN 0x00#8 = false ∧ codeIsNaN 0x80#8 = false ∧ codeIsNaN 0x7E#8 = false := by decide

theorem magWordValue_zero : magWordValue 0#31 = 0 :=
  magWordValue_of_fields (E := 0) (F := 0) rfl rfl (by norm_num [magWordUnits])

/-- The negative zero (equal signs), and 448 (a nonzero value). -/
theorem witness_DecodeUnique :
    (codeIsNaN 0x80#8 = false ∧ val32 0x80000000#32 = val8 0x80#8 ∧ wordSign 0x80000000#32 = codeSign 0x80#8) ∧
      (val32 0x80000000#32 = some (signFactor 1#1 * 0) ∧ wordSign 0x80000000#32 = wordSign 0x80000000#32) ∧
      (val32 0x43E00000#32 = some (signFactor 0#1 * 448) ∧ signFactor 0#1 * 448 ≠ 0) := by
  have hz : magCodeValue 0#7 = 0 := magCodeValue_of_toNat (n := 0) rfl (by norm_num [magCodeUnits])
  refine ⟨⟨by decide, ?_, by decide⟩, ⟨val32_of_mag rfl magWordValue_zero, rfl⟩, val32_of_mag rfl word448,
    by norm_num [signFactor]⟩
  rw [val32_of_mag (w := 0x80000000#32) rfl magWordValue_zero, val8_of_not_nan (b := 0x80#8) (by decide),
    show codeMag 0x80#8 = 0#7 by decide, hz]
  rfl

theorem witness_DecodeNaN :
    Config.default.legal = true ∧ codeMag 0x7F#8 = 0x7F#7 ∧ codeMag 0xFF#8 = 0x7F#7 := by decide

theorem witness_DecodeExponentRange :
    Config.default.legal = true ∧ codeClass 0x01#8 = .subnormal ∧ codeClass 0x87#8 = .subnormal ∧
      codeClass 0x08#8 = .normal ∧ codeClass 0xFE#8 = .normal ∧ codeClass 0x80#8 = .zero ∧
      wordIsFinite (dec Config.default 0x80#8) = true := by
  decide

theorem witness_DecodeOrder :
    val8 0x07#8 = some (7 / 2 ^ 9) ∧ val8 0x08#8 = some (1 / 2 ^ 6) ∧ (7 / 2 ^ 9 : ℚ) < 1 / 2 ^ 6 :=
  ⟨code_value_ends.2.1, code_value_ends.2.2.1, by norm_num⟩

/-- The largest finite magnitude, both sides of the edge at 464, and the tie 1.0625 between 0x38 and 0x39. -/
theorem witness_RoundByValue :
    magExp 0x7F7FFFFF#31 ≤ 254#8 ∧
      (magExp 0x43E80001#31 ≤ 254#8 ∧ (rnd 0x43E80001#31).ovf = true) ∧
      (magExp 0x43E80000#31 ≤ 254#8 ∧ (rnd 0x43E80000#31).ovf = false) ∧
      (magExp 0x3F880000#31 ≤ 254#8 ∧ (rnd 0x3F880000#31).ovf = false ∧ 0x39#7 ≤ 0x7E#7 ∧
        0x39#7 ≠ (rnd 0x3F880000#31).c ∧
        |magCodeValue 0x39#7 - magWordValue 0x3F880000#31| =
          |magCodeValue (rnd 0x3F880000#31).c - magWordValue 0x3F880000#31|) := by
  refine ⟨by decide, ⟨by decide, by decide⟩, ⟨by decide, by decide⟩, by decide, by decide, by decide, by decide, ?_⟩
  have h38 : magCodeValue 0x38#7 = 1 := magCodeValue_of_toNat (n := 56) rfl (by norm_num [magCodeUnits])
  have h39 : magCodeValue 0x39#7 = 9 / 8 := magCodeValue_of_toNat (n := 57) rfl (by norm_num [magCodeUnits])
  have hx : magWordValue 0x3F880000#31 = 17 / 16 :=
    magWordValue_of_fields (E := 127) (F := 0x080000) rfl rfl (by norm_num [magWordUnits])
  rw [show (rnd 0x3F880000#31).c = 0x38#7 by decide, h38, h39, hx]
  norm_num [abs_of_pos, abs_of_neg]

theorem witness_RoundFlagsAsWords :
    magExp 0x43E80000#31 ≤ 254#8 ∧ (rnd 0x43E80000#31).big = true ∧ (rnd 0x43E80000#31).ovf = false ∧
      (rnd 0x43E80001#31).ovf = true := by decide

/-- The tie 2^-10 between 0x00 and 0x01, the tie 464, and 464 as the last magnitude of the third clause. -/
theorem witness_RoundTies :
    (magExp 0x3A800000#31 ≤ 254#8 ∧ 1#7 ≤ 0x7E#7 ∧ (1#7).toNat = (0#7).toNat + 1 ∧
      magWordValue 0x3A800000#31 = (magCodeValue 0#7 + magCodeValue 1#7) / 2) ∧
    (magExp 0x43E80000#31 ≤ 254#8 ∧ magWordValue 0x43E80000#31 = 464) ∧
    (121#8 ≤ magExp 0x43E80000#31 ∧ magExp 0x43E80000#31 ≤ 254#8 ∧ magWordValue 0x43E80000#31 ≤ 464) := by
  have h0 : magCodeValue 0#7 = 0 := magCodeValue_of_toNat (n := 0) rfl (by norm_num [magCodeUnits])
  have h1 : magCodeValue 1#7 = 1 / 2 ^ 9 := magCodeValue_of_toNat (n := 1) rfl (by norm_num [magCodeUnits])
  have hx : magWordValue 0x3A800000#31 = 1 / 2 ^ 10 :=
    magWordValue_of_fields (E := 117) (F := 0) rfl rfl (by norm_num [magWordUnits])
  exact ⟨⟨by decide, by decide, by decide, by rw [h0, h1, hx]; norm_num⟩, ⟨by decide, word464⟩, by decide, by decide,
    word464.le⟩

theorem witness_RoundExponent255 :
    magExp 0x7F800000#31 = 255#8 ∧ magExp 0x7FFFFFFF#31 = 255#8 ∧ wordExp 0x7F800000#32 = 255#8 ∧
      wordExp 0xFFFFFFFF#32 = 255#8 := by decide

theorem witness_DatapathWidths :
    (121 ≤ 121 ∧ 121 ≤ 135 ∧ 2 ^ 23 - 1 < 2 ^ 23) ∧ (121 ≤ 135 ∧ 135 ≤ 135) ∧ (0 ≤ 120 ∧ 120 ≤ 120 ∧ 0 < 2 ^ 23) ∧
      codeClass 0x7E#8 = .normal ∧ codeClass 0x01#8 = .subnormal := by decide

/-- Each overflow clause (480 under NAN, 464 under NAN_STRICT and under SAT), and 464 under NAN, which none of them takes:
the value where the clauses meet. -/
theorem witness_EncodeByValue :
    (∃ v, val32 0x43F00000#32 = some v ∧ Config.default.ovfMode = .nan ∧ 464 < |v|) ∧
    (∃ v, val32 0x43E80000#32 = some v ∧ ({ Config.default with ovfMode := .nanStrict } : Config).ovfMode = .nanStrict ∧
      448 < |v|) ∧
    (∃ v, val32 0x43E80000#32 = some v ∧ ({ Config.default with ovfMode := .sat } : Config).ovfMode = .sat ∧ 448 < |v|) ∧
    (∃ v, val32 0x43E80000#32 = some v ∧
      ¬ ((Config.default.ovfMode = .nan ∧ 464 < |v|) ∨ (Config.default.ovfMode = .nanStrict ∧ 448 < |v|)) ∧
      ¬ (Config.default.ovfMode = .sat ∧ 448 < |v|)) := by
  have h464 := val32_of_mag (w := 0x43E80000#32) rfl word464
  refine ⟨⟨_, val32_of_mag rfl word480, rfl, ?_⟩, ⟨_, h464, rfl, ?_⟩, ⟨_, h464, rfl, ?_⟩, ⟨_, h464, ?_, ?_⟩⟩
  · norm_num [signFactor, show wordSign 0x43F00000#32 = 0#1 by decide]
  · norm_num [signFactor, show wordSign 0x43E80000#32 = 0#1 by decide]
  · norm_num [signFactor, show wordSign 0x43E80000#32 = 0#1 by decide]
  · rintro (⟨-, h⟩ | ⟨h, -⟩)
    · norm_num [signFactor, show wordSign 0x43E80000#32 = 0#1 by decide] at h
    · exact absurd h (by decide)
  · rintro ⟨h, -⟩
    exact absurd h (by decide)

theorem witness_EncodeSpecials :
    wordIsQuietNaN 0x7FC00000#32 = true ∧ wordIsSignallingNaN 0x7F800001#32 = true ∧
      (wordClass 0xFF800000#32 = .infinity ∧ Config.default.infMode = .nan) ∧
      (wordClass 0x7F800000#32 = .infinity ∧ ({ Config.default with infMode := .sat } : Config).infMode = .sat) ∧
      wordClass 0x80000000#32 = .zero := by decide

/-- A finite result, a NaN code, and -2^-11, below 2^-10 in magnitude. -/
theorem witness_EncodeSign :
    codeIsNaN (enc Config.default 0xBF800000#32) = false ∧ codeIsNaN (enc Config.default 0xFF800000#32) = true ∧
      ∃ x, val32 0xBA000000#32 = some x ∧ x < 0 ∧ |x| < 1 / 2 ^ 10 := by
  have hx : magWordValue (wordMag 0xBA000000#32) = 1 / 2 ^ 11 :=
    magWordValue_of_fields (E := 116) (F := 0) rfl rfl (by norm_num [magWordUnits])
  refine ⟨by decide, by decide, _, val32_of_mag rfl hx, ?_, ?_⟩
  · norm_num [signFactor, show wordSign 0xBA000000#32 = 1#1 by decide]
  · norm_num [signFactor, show wordSign 0xBA000000#32 = 1#1 by decide]

theorem witness_EncodeSubnormalInput :
    wordClass 0x00000001#32 = .subnormal ∧ wordClass 0x807FFFFF#32 = .subnormal := by decide

theorem witness_OverflowThresholds :
    (∃ v, val32 0x43E80000#32 = some v) ∧
      (wordIsFinite 0x43F00000#32 = true ∧ 0x43F00000#31 ≤ wordMag 0x43F00000#32) ∧
      ({ Config.default with ovfMode := .sat } : Config).ovfMode = .sat ∧ Config.default.ovfMode ≠ .sat :=
  ⟨⟨_, val32_of_mag rfl word464⟩, by decide, by decide, by decide⟩

theorem witness_RoundTrip :
    Config.default.legal = true ∧ codeMag 0xFE#8 ≠ 0x7F#7 ∧ codeMag 0xFF#8 = 0x7F#7 ∧
      Config.default.encNanSign = .copy ∧ wordSign Config.default.decNanPos = 0#1 ∧
      wordSign Config.default.decNanNeg = 1#1 ∧
      ({ Config.default with encNanSign := .positive } : Config).encNanSign = .positive := by decide

theorem witness_EncodeOrder :
    val32 0x43E00000#32 = some (signFactor 0#1 * 448) ∧ val32 0x43E80000#32 = some (signFactor 0#1 * 464) ∧
      signFactor 0#1 * 448 ≤ signFactor 0#1 * 464 ∧ val8 (enc Config.default 0x43E00000#32) = some 448 ∧
      val8 (enc Config.default 0x43E80000#32) = some 448 := by
  refine ⟨val32_of_mag rfl word448, val32_of_mag rfl word464, by norm_num [signFactor], ?_, ?_⟩
  · rw [show enc Config.default 0x43E00000#32 = 0x7E#8 by decide]
    exact code_value_ends.2.2.2
  · rw [show enc Config.default 0x43E80000#32 = 0x7E#8 by decide]
    exact code_value_ends.2.2.2

theorem witness_EncodeReadsOneStickyBit :
    wordSign 0xBF8C0001#32 = wordSign 0xBF8FFFFF#32 ∧ wordExp 0xBF8C0001#32 = wordExp 0xBF8FFFFF#32 ∧
      121#8 ≤ wordExp 0xBF8C0001#32 ∧ wordExp 0xBF8C0001#32 ≤ 135#8 ∧
      (0xBF8C0001#32).extractLsb' 19 4 = (0xBF8FFFFF#32).extractLsb' 19 4 ∧
      ((0xBF8C0001#32).extractLsb' 0 19 = 0#19 ↔ (0xBF8FFFFF#32).extractLsb' 0 19 = 0#19) := by decide

theorem witness_ResultsReadOnlyTheirParameters :
    (0xFFFFFF38#32).extractLsb' 0 8 = (0x00000038#32).extractLsb' 0 8 ∧
      (withLatency 3).decNanPos = Config.default.decNanPos ∧ (withLatency 3).decNanNeg = Config.default.decNanNeg ∧
      (withLatency 3).ovfMode = Config.default.ovfMode ∧ (withLatency 3).infMode = Config.default.infMode ∧
      (withLatency 3).encNanSign = Config.default.encNanSign := by decide

theorem witness_ResultPlacement : (0xFFFFFF38#32).extractLsb' 0 8 = (0x00000038#32).extractLsb' 0 8 := by decide

/-- Both clauses of the completion statements: `LATENCY` = 0 with no stage, and `LATENCY` = 2 with a last stage. -/
theorem witness_DecodeCompletes :
    (State.reset.cfg.legal = true ∧ PipeLength State.reset ∧ State.reset.cfg.latency = 0) ∧
      (p4Cycle3.cfg.legal = true ∧ PipeLength p4Cycle3 ∧
        p4Cycle3.pipe = [⟨true, 0xFFF00000#32⟩] ++ [⟨true, 0x00000038#32⟩]) := by
  unfold PipeLength
  decide

theorem witness_EncodeCompletes :
    (State.reset.cfg.legal = true ∧ PipeLength State.reset ∧ State.reset.cfg.latency = 0) ∧
      (p4Cycle3.cfg.legal = true ∧ PipeLength p4Cycle3 ∧
        p4Cycle3.pipe = [⟨true, 0xFFF00000#32⟩] ++ [⟨true, 0x00000038#32⟩]) := witness_DecodeCompletes

/-- P4, cycle 1: an ENCODE request presented to an empty pipeline of two stages. -/
def p4Cycle1 : State :=
  stateOf (withLatency 2) [⟨false, 0#32⟩, ⟨false, 0#32⟩] (request 1#1 0x3F800000#32) [request 0#1 0xFF#32, PortIn.quiet]

theorem witness_StepRunsThePresentedRequest :
    (p4Cycle1.port.reqValid = true ∧ p4Cycle1.port.rst = false) ∧
      decodeTableWord 40 0x1FFFFFFFF = some (.encode 0xFFFFFFFF#32) ∧
      p4Cycle3.upcoming = request 0#1 0x38#32 :: [] ∧ State.reset.upcoming = [] := by decide

theorem witness_StepOutcomes :
    PipeLength readsNothing ∧
      (readsNothing.cfg.legal = true ∧ readsNothing.port.readY = true ∧ readsNothing.pipe = [] ++ [⟨false, 0#32⟩]) ∧
      SafeCycle p4Cycle3 ∧
      ¬ (wordIsNaN ({ Config.default with decNanPos := 0#32 } : Config).decNanPos = true) := by
  refine ⟨rfl, by decide, ⟨by decide, fun h => absurd h (by decide)⟩, by decide⟩

theorem witness_CombinationalResponse :
    State.reset.cfg.legal = true ∧ State.reset.cfg.latency = 0 ∧ PipeLength State.reset := by
  unfold PipeLength
  decide

theorem witness_ResetLeavesNothingValid :
    (resetWhileBusy.cfg.legal = true ∧ resetWhileBusy.port.rst = true ∧ 0 < resetWhileBusy.cfg.latency) ∧
      (State.reset.cfg.latency = 0 ∧ nextMeets (runCycle State.reset) (fun t => t.cfg = Config.default) = true) := by
  decide

theorem witness_InvAtReset : Config.default.legal = true ∧ (withLatency 4).legal = true := by decide

theorem inv_p4Cycle1 : Inv p4Cycle1 where
  legal := by decide
  length := rfl
  results := by
    intro st h hv
    simp only [p4Cycle1, stateOf, List.mem_cons, List.not_mem_nil, or_false, or_self] at h
    rw [h] at hv
    cases hv

theorem witness_StepKeepsInv : Inv p4Cycle1 ∧ ∃ t, step p4Cycle1 = .next t :=
  ⟨inv_p4Cycle1, _, step_of_safe (safeCycle_of_no_read (by decide) (by decide))⟩

/-- P4, cycle 3 holds two results in flight and shows a valid response. -/
theorem inv_p4Cycle3 : Inv p4Cycle3 where
  legal := by decide
  length := rfl
  results := by
    intro st h _
    simp only [p4Cycle3, stateOf, List.mem_cons, List.not_mem_nil, or_false] at h
    rcases h with rfl | rfl
    · exact ⟨0#1, 0xFF#32, by decide⟩
    · exact ⟨1#1, 0x3F800000#32, by decide⟩

theorem witness_StepKeepsInv_validResponse :
    Inv p4Cycle3 ∧ nextMeets (step p4Cycle3) (fun t => t.rsp.valid) = true := ⟨inv_p4Cycle3, by decide⟩

theorem witness_ParametersNeverChange :
    PipeLength p4Cycle1 ∧ nextMeets (runCycles 3 p4Cycle1) (fun t => t.rsp = ⟨true, some 0x38#32⟩) = true := by
  unfold PipeLength
  decide

/-- P4, cycle 1 again, and `LATENCY` = 0 with a request. -/
theorem witness_ResponseAfterLatency :
    (p4Cycle1.cfg.legal = true ∧ PipeLength p4Cycle1 ∧ p4Cycle1.port.reqValid = true ∧
      ∀ p ∈ pinsOver p4Cycle1.cfg.latency p4Cycle1, p.rst = false ∧ p.readY = false) ∧
    ((State.reset.withFetchWord 40 0x38).cfg.legal = true ∧ PipeLength (State.reset.withFetchWord 40 0x38) ∧
      (State.reset.withFetchWord 40 0x38).port.reqValid = true ∧
      ∀ p ∈ pinsOver 0 (State.reset.withFetchWord 40 0x38), p.rst = false ∧ p.readY = false) := by
  unfold PipeLength
  decide

theorem safeRun_p4Cycle1 : SafeRun 2 p4Cycle1 := by
  refine ⟨safeCycle_of_no_read (by decide) (by decide), fun t ht => ?_⟩
  obtain ⟨-, rfl⟩ := step_next ht
  exact ⟨safeCycle_of_no_read (by decide) (by decide), fun _ _ => trivial⟩

theorem witness_ResponsesInRequestOrder :
    PipeLength p4Cycle1 ∧ SafeRun 2 p4Cycle1 ∧ 0 < p4Cycle1.cfg.latency ∧
      ∀ p ∈ pinsOver 2 p4Cycle1, p.rst = false := ⟨rfl, safeRun_p4Cycle1, by decide, by decide⟩

/-- The same request after a different past, and before a different future. -/
def p4Cycle1Busy : State :=
  stateOf (withLatency 2) [⟨true, 0x3F800000#32⟩, ⟨true, 0x7F#32⟩] (request 1#1 0x3F800000#32) []

theorem witness_NoRequestObservesAnother :
    p4Cycle1.cfg = p4Cycle1Busy.cfg ∧ PipeLength p4Cycle1 ∧ PipeLength p4Cycle1Busy ∧
      p4Cycle1.port.reqValid = p4Cycle1Busy.port.reqValid ∧ p4Cycle1.port.reqOp = p4Cycle1Busy.port.reqOp ∧
      p4Cycle1.port.reqA = p4Cycle1Busy.port.reqA ∧
      (∀ p ∈ pinsOver p4Cycle1.cfg.latency p4Cycle1, p.rst = false) ∧
      (∀ p ∈ pinsOver p4Cycle1Busy.cfg.latency p4Cycle1Busy, p.rst = false) ∧
      nextMeets (runCycles (p4Cycle1.cfg.latency + 1) p4Cycle1) (fun _ => true) = true ∧
      nextMeets (runCycles (p4Cycle1Busy.cfg.latency + 1) p4Cycle1Busy) (fun _ => true) = true := by
  unfold PipeLength
  decide

theorem witness_SafeRunCompletes :
    SafeRun 2 p4Cycle1 ∧ (State.reset.cfg.legal = true ∧ State.reset.cfg.latency = 0) ∧
      (p4Cycle1.cfg.legal = true ∧ ∀ p ∈ pinsOver 3 p4Cycle1, p.readY = false) :=
  ⟨safeRun_p4Cycle1, by decide, by decide⟩

/-- -464 under NAN, and a NaN input. -/
theorem witness_QuantNearest :
    (∃ x, val32 0xC3E80000#32 = some x ∧ codeIsNaN (enc Config.default 0xC3E80000#32) = false) ∧
      (({ Config.default with infMode := .sat } : Config).infMode = .sat ∧ wordIsInf 0xFF800000#32 = true) ∧
      (Config.default.legal = true ∧ codeIsNaN (enc Config.default 0x43E80001#32) = true) :=
  ⟨⟨_, val32_of_mag rfl word464, by decide⟩, by decide, by decide⟩

theorem witness_QuantIdempotent :
    Config.default.legal = true ∧ codeIsNaN (enc Config.default 0x3DCCCCCD#32) = false := by decide

theorem witness_HostStatementsStoreResponses :
    p4Cycle3.cfg.legal = true ∧ PipeLength p4Cycle3 ∧ hostGet [(0, 0x3DCCCCCD#32)] 0 = some 0x3DCCCCCD#32 := by
  unfold PipeLength
  decide

theorem witness_InstancesIndependent :
    (∃ sys', stepInstance 1 [State.reset, State.reset] = some sys') ∧ (0 : Nat) ≠ 1 ∧
      ∃ t, [State.reset, State.reset][1]? = some State.reset ∧ step State.reset = .next t := by
  have h : step State.reset = .next (nextInputs (edgeState State.reset)) :=
    step_of_safe (safeCycle_of_no_read (by decide) (by decide))
  exact ⟨⟨_, by simp [stepInstance, h]; rfl⟩, by decide, _, rfl, h⟩

end Sys2Proof.Tests
end

