-- ==== Sys2Proof/Proofs/Scope.lean ====
section
/-! The family of spec/00_scope.md: ENCODE of the special words (R9, R10, R33, R120) and the configuration string (R4).
The classes of R32 become conditions on the fields, and each special word goes through the branch of ENC it selects. -/

namespace Sys2Proof.Machine

/-- Fraction bit 22 splits the NaNs in two, so quiet or signalling is just NaN (R33). -/
theorem quiet_or_signalling_iff_nan (w : Word) :
    wordIsQuietNaN w = true ∨ wordIsSignallingNaN w = true ↔ wordIsNaN w = true := by
  unfold wordIsQuietNaN wordIsSignallingNaN
  cases w.getLsbD 22 <;> simp

theorem wordClass_eq_infinity_iff (w : Word) : wordClass w = .infinity ↔ wordIsInf w = true := by
  by_cases hE : wordExp w = 0xFF#8
  · by_cases hF : wordFrac w = 0#23 <;> simp [wordClass, wordIsInf, hE, hF]
  · by_cases hF : wordFrac w = 0#23 <;> simp [wordClass, wordIsInf, hE, hF, ite_eq_iff]

theorem wordClass_eq_zero_iff (w : Word) : wordClass w = .zero ↔ wordExp w = 0#8 ∧ wordFrac w = 0#23 := by
  by_cases hE : wordExp w = 0xFF#8
  · by_cases hF : wordFrac w = 0#23 <;> simp [wordClass, hE, hF]
  · by_cases hF : wordFrac w = 0#23 <;> simp [wordClass, hE, hF, ite_eq_iff]

/-- Both zeros have the magnitude word 0. -/
theorem wordMag_of_zero {w : Word} (h : wordClass w = .zero) : wordMag w = 0#31 := by
  obtain ⟨hE, hF⟩ := (wordClass_eq_zero_iff w).mp h
  apply BitVec.eq_of_toNat_eq
  rw [mag_toNat_fields, magExp_wordMag, magFrac_wordMag, hE, hF]
  rfl

/-- `NAN8` with its sign written out (R10, R120). -/
theorem encNan_eq (cfg : Config) (s : BitVec 1) :
    encNan cfg s = if cfg.encNanSign = .copy then packCode s 0x7F#7 else 0x7F#8 := by
  unfold encNan
  cases cfg.encNanSign <;> rfl

/-- No overflow policy acts where RND raises neither indication (R8). -/
theorem overflowsToNaN_of_within (mode : OvfMode) {r : RndOut} (ho : r.ovf = false) (hb : r.big = false) :
    overflowsToNaN mode r = false := by
  cases mode
  case nan => exact ho
  case sat => rfl
  case nanStrict => exact hb

/-- A finite word at which RND raises neither indication gives RND's code under every configuration (R120). -/
theorem enc_of_within (cfg : Config) {w : Word} (hw : wordIsFinite w = true) (ho : (rnd (wordMag w)).ovf = false)
    (hb : (rnd (wordMag w)).big = false) : enc cfg w = packCode (wordSign w) (rnd (wordMag w)).c := by
  rw [enc_of_finite cfg hw, encFinite_eq, overflowsToNaN_of_within cfg.ovfMode ho hb]
  exact if_neg Bool.false_ne_true

theorem rnd_zero : rnd 0#31 = ⟨0#7, false, false⟩ := by decide

/-- ENC of a zero: RND sends magnitude 0 to code 0 with no indication (R120). -/
theorem enc_of_zero (cfg : Config) {w : Word} (h : wordClass w = .zero) : enc cfg w = packCode (wordSign w) 0#7 := by
  have hfin : wordIsFinite w = true := by
    simp [wordIsFinite, ((wordClass_eq_zero_iff w).mp h).1]
  have hrnd : rnd (wordMag w) = ⟨0#7, false, false⟩ := by rw [wordMag_of_zero h, rnd_zero]
  rw [enc_of_within cfg hfin (by rw [hrnd]) (by rw [hrnd]), hrnd]

/-- Settles O21, one special word at a time: the branch of ENC it takes, then the policy that branch reads. -/
theorem encodeSpecials : Obligations.EncodeSpecials := by
  intro cfg w
  refine ⟨fun hnan => ?_, fun hinf hmode => ?_, fun hinf hmode => ?_, enc_of_zero cfg⟩
  · rw [enc_of_nan cfg ((quiet_or_signalling_iff_nan w).mp hnan), encNan_eq]
  · rw [enc_of_inf cfg ((wordClass_eq_infinity_iff w).mp hinf), encInf, hmode]
    exact encNan_eq cfg (wordSign w)
  · rw [enc_of_inf cfg ((wordClass_eq_infinity_iff w).mp hinf), encInf, hmode]
    rfl

/-- Settles O48: both sides are closed lists of characters. -/
theorem defaultIdentity : Obligations.DefaultIdentity := by
  unfold Obligations.DefaultIdentity
  decide

end Sys2Proof.Machine
end

/-! The family of spec/10_state.md: the classes and values of both formats, the invariant of the pipeline along a step and
a run, and the way of one request through the stages. -/

namespace Sys2Proof.Machine

/-! ### The classes of the codes (R27) -/

theorem codeClass_eq_nan_iff (b : Code) : codeClass b = .nan ↔ codeExp b = 0b1111#4 ∧ codeMan b = 0b111#3 := by
  unfold codeClass
  by_cases hn : codeExp b = 0b1111#4 ∧ codeMan b = 0b111#3
  · simp [hn]
  · by_cases he : codeExp b = 0#4 <;> simp [hn, he, ite_eq_iff]

theorem codeClass_eq_zero_iff (b : Code) : codeClass b = .zero ↔ codeExp b = 0#4 ∧ codeMan b = 0#3 := by
  unfold codeClass
  by_cases he : codeExp b = 0#4 <;> simp [he, ite_eq_iff]

theorem codeClass_eq_subnormal_iff (b : Code) :
    codeClass b = .subnormal ↔ codeExp b = 0#4 ∧ codeMan b ≠ 0#3 := by
  unfold codeClass
  by_cases he : codeExp b = 0#4 <;> simp [he, ite_eq_iff]

theorem codeClass_eq_normal_iff (b : Code) :
    codeClass b = .normal ↔ codeExp b ≠ 0#4 ∧ ¬ (codeExp b = 0b1111#4 ∧ codeMan b = 0b111#3) := by
  unfold codeClass
  by_cases he : codeExp b = 0#4 <;> simp [he, ite_eq_iff]

/-- An exponent field that is not 0 is at least 1. -/
theorem one_le_codeExp_iff (b : Code) : 1#4 ≤ codeExp b ↔ codeExp b ≠ 0#4 := by
  rw [BitVec.le_def, ne_eq, ← BitVec.toNat_inj, BitVec.toNat_ofNat, BitVec.toNat_ofNat]
  omega

/-! The classes again, each as a range of magnitude codes. -/

theorem codeClass_eq_nan_iff_mag (b : Code) : codeClass b = .nan ↔ (codeMag b).toNat = 127 := by
  rw [codeClass_eq_nan_iff, ← codeIsNaN_iff_fields, codeIsNaN_iff]

theorem codeClass_eq_zero_iff_mag (b : Code) : codeClass b = .zero ↔ (codeMag b).toNat = 0 := by
  rw [codeClass_eq_zero_iff, ← BitVec.toNat_inj, ← BitVec.toNat_inj, codeExp_toNat, codeMan_toNat, codeMag_toNat,
    BitVec.toNat_ofNat, BitVec.toNat_ofNat]
  omega

theorem codeClass_eq_subnormal_iff_mag (b : Code) :
    codeClass b = .subnormal ↔ 1 ≤ (codeMag b).toNat ∧ (codeMag b).toNat ≤ 7 := by
  rw [codeClass_eq_subnormal_iff, ne_eq, ← BitVec.toNat_inj, ← BitVec.toNat_inj, codeExp_toNat, codeMan_toNat,
    codeMag_toNat, BitVec.toNat_ofNat, BitVec.toNat_ofNat]
  omega

theorem codeClass_eq_normal_iff_mag (b : Code) :
    codeClass b = .normal ↔ 8 ≤ (codeMag b).toNat ∧ (codeMag b).toNat ≤ 126 := by
  rw [codeClass_eq_normal_iff, ← codeIsNaN_iff_fields, Bool.not_eq_true, codeIsNaN_false_iff, ne_eq, ← BitVec.toNat_inj,
    codeExp_toNat, codeMag_toNat, BitVec.toNat_ofNat]
  omega

/-- A code is the magnitude code or, with the sign bit set, 128 more. -/
theorem code_toNat_cases (b : Code) : b.toNat = (codeMag b).toNat ∨ b.toNat = (codeMag b).toNat + 128 := by
  rw [codeMag_toNat]
  have := b.isLt
  omega

/-- The two codes of one magnitude code. -/
theorem mag_eq_iff_code (b : Code) {n : Nat} (h : n < 128) :
    (codeMag b).toNat = n ↔ b = BitVec.ofNat 8 n ∨ b = BitVec.ofNat 8 (n + 128) := by
  rw [← BitVec.toNat_inj, ← BitVec.toNat_inj, BitVec.toNat_ofNat, BitVec.toNat_ofNat]
  have := code_toNat_cases b
  have := (codeMag b).isLt
  omega

/-- The two ranges of codes of one range of magnitude codes. -/
theorem mag_range_iff_code (b : Code) {m n : Nat} (hm : m < 128) (hn : n < 128) :
    m ≤ (codeMag b).toNat ∧ (codeMag b).toNat ≤ n ↔
      (BitVec.ofNat 8 m ≤ b ∧ b ≤ BitVec.ofNat 8 n) ∨
        (BitVec.ofNat 8 (m + 128) ≤ b ∧ b ≤ BitVec.ofNat 8 (n + 128)) := by
  simp only [BitVec.le_def, BitVec.toNat_ofNat]
  have := code_toNat_cases b
  have := (codeMag b).isLt
  omega

theorem val8_isSome_iff (b : Code) : (val8 b).isSome = true ↔ codeIsNaN b = false := by
  unfold val8
  cases codeIsNaN b <;> simp

/-- Settles O6: each class by its fields is a range of magnitude codes, which is a range of codes for either sign. -/
theorem codeClasses : Obligations.CodeClasses := by
  intro b
  refine ⟨codeClass_eq_nan_iff b, codeClass_eq_zero_iff b, codeClass_eq_subnormal_iff b, ?_, ?_, ?_, ?_, ?_, ?_⟩
  · rw [codeClass_eq_normal_iff, one_le_codeExp_iff]
  · rw [codeClass_eq_nan_iff_mag, mag_eq_iff_code b (by decide)]
  · rw [codeClass_eq_zero_iff_mag, mag_eq_iff_code b (by decide)]
  · rw [codeClass_eq_subnormal_iff_mag, mag_range_iff_code b (by decide) (by decide)]
  · rw [codeClass_eq_normal_iff_mag, mag_range_iff_code b (by decide) (by decide)]
  · rw [val8_isSome_iff, ne_eq, codeClass_eq_nan_iff, ← codeIsNaN_iff_fields, Bool.not_eq_true]

/-! ### The values of the codes (R28 to R30) -/

/-- The value of a code with sign bit 0 is its magnitude. -/
theorem val8_pack_positive {c : MagCode} (h : c.toNat ≤ 126) : val8 (packCode 0#1 c) = some (magCodeValue c) := by
  have hnan : codeIsNaN (packCode 0#1 c) = false := by rwa [codeIsNaN_false_iff, codeMag_pack]
  rw [val8_of_not_nan hnan, codeSign_pack, codeMag_pack]
  simp [signFactor]

theorem magCodeValue_0x7E : magCodeValue 0x7E#7 = 448 := by norm_num [magCodeValue, natSlice]
theorem magCodeValue_0x08 : magCodeValue 0x08#7 = 1 / 2 ^ 6 := by norm_num [magCodeValue, natSlice]
theorem magCodeValue_0x07 : magCodeValue 0x07#7 = 7 / 2 ^ 9 := by norm_num [magCodeValue, natSlice]
theorem magCodeValue_0x01 : magCodeValue 0x01#7 = 1 / 2 ^ 9 := by norm_num [magCodeValue, natSlice]
theorem magCodeValue_0x38 : magCodeValue 0x38#7 = 1 := by norm_num [magCodeValue, natSlice]
theorem magCodeValue_0x7F : magCodeValue 0x7F#7 = 480 := by norm_num [magCodeValue, natSlice]

theorem magCodeValue_eq_zero_of_toNat {c : MagCode} (h : c.toNat = 0) : magCodeValue c = 0 := by
  simp [magCodeValue_eq_units, magCodeUnits, h]

/-- A code at or below the magnitude code `c` has a value of at most that magnitude. -/
theorem abs_val8_le {b : Code} {x : ℚ} (hx : val8 b = some x) {c : MagCode} (h : (codeMag b).toNat ≤ c.toNat) :
    |x| ≤ magCodeValue c := by
  obtain ⟨-, habs, -⟩ := val8_eq_some hx
  rw [habs]
  exact magCodeValue_le_iff.mpr h

/-- A code at or above the magnitude code `c` has a value of at least that magnitude. -/
theorem le_abs_val8 {b : Code} {x : ℚ} (hx : val8 b = some x) {c : MagCode} (h : c.toNat ≤ (codeMag b).toNat) :
    magCodeValue c ≤ |x| := by
  obtain ⟨-, habs, -⟩ := val8_eq_some hx
  rw [habs]
  exact magCodeValue_le_iff.mpr h

theorem one_le_mag_of_val8_ne_zero {b : Code} {x : ℚ} (hx : val8 b = some x) (h0 : x ≠ 0) :
    1 ≤ (codeMag b).toNat := by
  obtain ⟨-, habs, -⟩ := val8_eq_some hx
  by_contra hlt
  rw [magCodeValue_eq_zero_of_toNat (by omega), abs_eq_zero] at habs
  exact h0 habs

/-- Settles O7: each extreme value is that of the magnitude code at the end of its class. -/
theorem formatConstants : Obligations.FormatConstants := by
  have hmax : ∀ b x, val8 b = some x → |x| ≤ 448 := fun b x hx =>
    magCodeValue_0x7E ▸ abs_val8_le hx ((codeIsNaN_false_iff b).mp (val8_eq_some hx).1)
  have hnormal : ∀ b x, codeClass b = .normal → val8 b = some x → 1 / 2 ^ 6 ≤ |x| := fun b x hb hx =>
    magCodeValue_0x08 ▸ le_abs_val8 hx ((codeClass_eq_normal_iff_mag b).mp hb).1
  have hsubnormal : ∀ b x, codeClass b = .subnormal → val8 b = some x → |x| ≤ 7 / 2 ^ 9 := fun b x hb hx =>
    magCodeValue_0x07 ▸ abs_val8_le hx ((codeClass_eq_subnormal_iff_mag b).mp hb).2
  have hnonzero : ∀ b x, val8 b = some x → x ≠ 0 → 1 / 2 ^ 9 ≤ |x| := fun b x hx h0 =>
    magCodeValue_0x01 ▸ le_abs_val8 hx (one_le_mag_of_val8_ne_zero hx h0)
  refine ⟨?_, hmax, ?_, hnormal, ?_, hsubnormal, ?_, hnonzero, ?_, rfl, rfl, rfl, magCodeValue_0x7F⟩
  · exact magCodeValue_0x7E ▸ val8_pack_positive (c := 0x7E#7) (by decide)
  · exact magCodeValue_0x08 ▸ val8_pack_positive (c := 0x08#7) (by decide)
  · exact magCodeValue_0x07 ▸ val8_pack_positive (c := 0x07#7) (by decide)
  · exact magCodeValue_0x01 ▸ val8_pack_positive (c := 0x01#7) (by decide)
  · exact magCodeValue_0x38 ▸ val8_pack_positive (c := 0x38#7) (by decide)

/-- Below code 8 neighbouring codes are one subnormal step apart. -/
theorem magCodeValue_gap_low {c d : MagCode} (hd : d.toNat = c.toNat + 1) (hc : c.toNat < 8) :
    magCodeValue d - magCodeValue c = 1 / 2 ^ 9 := by
  rw [magCodeValue_eq_units, magCodeValue_eq_units, hd, magCodeUnits_succ_low hc]
  push_cast
  ring

/-- From code 8 on neighbouring codes are one step of the lower one's binade apart. -/
theorem magCodeValue_gap_high {c d : MagCode} (hd : d.toNat = c.toNat + 1) (hc : 8 ≤ c.toNat) :
    magCodeValue d - magCodeValue c = 2 ^ natSlice c.toNat 6 3 / 2 ^ 10 := by
  have hexp : natSlice c.toNat 6 3 = c.toNat / 8 := by
    have := c.isLt
    unfold natSlice
    omega
  rw [magCodeValue_eq_units, magCodeValue_eq_units, hd, magCodeUnits_succ_high hc, hexp, pow_add]
  push_cast
  ring

/-- Of two neighbouring codes exactly one is even. -/
theorem parity_alternates {c d : MagCode} (hd : d.toNat = c.toNat + 1) :
    (c.getLsbD 0 = false ∧ d.getLsbD 0 = true) ∨ (c.getLsbD 0 = true ∧ d.getLsbD 0 = false) := by
  simp only [getLsbD_zero_eq, hd, decide_eq_true_eq, decide_eq_false_iff_not]
  omega

/-- The parity of a code is the low bit of its `m` field. -/
theorem codeMan_pack_getLsbD_zero (s : BitVec 1) (c : MagCode) :
    (codeMan (packCode s c)).getLsbD 0 = c.getLsbD 0 := by
  rw [getLsbD_zero_eq, getLsbD_zero_eq, codeMan_toNat, packCode_toNat, decide_eq_decide]
  omega

/-- Settles O8, from the steps of `magCodeUnits`. -/
theorem magnitudeCodeOrder : Obligations.MagnitudeCodeOrder :=
  ⟨fun _ _ _ _ => BitVec.lt_def.trans magCodeValue_lt_iff.symm,
    fun _ _ _ hd => ⟨magCodeValue_gap_low hd, magCodeValue_gap_high hd, parity_alternates hd⟩,
    codeMan_pack_getLsbD_zero⟩

/-! ### The values of the finite words (R32, R34) -/

theorem val32_isSome_iff (w : Word) : (val32 w).isSome = true ↔ wordIsFinite w = true := by
  unfold val32
  cases wordIsFinite w <;> simp

/-- The value of a finite word with sign bit 0 is its magnitude. -/
theorem val32_of_positive {w : Word} (hf : wordIsFinite w = true) (hs : wordSign w = 0#1) :
    val32 w = some (magWordValue (wordMag w)) := by
  rw [val32_of_finite hf, hs]
  simp [signFactor]

/-- A positive word in the binade of 256 (exponent field 135), by its fraction field. -/
theorem val32_of_binade_256 {w : Word} {n : Nat} (hs : wordSign w = 0#1) (hE : wordExp w = 135#8)
    (hF : (wordFrac w).toNat = n) : val32 w = some (256 + (n : ℚ) / 2 ^ 15) := by
  have hfin : wordIsFinite w = true := by simp [wordIsFinite, hE]
  rw [val32_of_positive hfin hs, magWordValue, magExp_wordMag, magFrac_wordMag, hE, hF]
  norm_num
  ring

/-- Infinity is the one magnitude word of its fields (R32, R34). -/
theorem wordIsInf_iff_mag (w : Word) : wordIsInf w = true ↔ wordMag w = 0x7F800000#31 := by
  rw [wordIsInf, Bool.and_eq_true, beq_iff_eq, beq_iff_eq, ← BitVec.toNat_inj, ← BitVec.toNat_inj, ← BitVec.toNat_inj,
    wordExp_toNat, wordFrac_toNat, wordMag_toNat]
  simp only [BitVec.toNat_ofNat]
  omega

theorem wordMag_le_iff_abs {w v : Word} {x y : ℚ} (hx : val32 w = some x) (hy : val32 v = some y) :
    wordMag w ≤ wordMag v ↔ |x| ≤ |y| := by
  obtain ⟨-, hxabs, -⟩ := val32_eq_some hx
  obtain ⟨-, hyabs, -⟩ := val32_eq_some hy
  rw [hxabs, hyabs, magWordValue_le_iff, BitVec.le_def]

/-- Settles O9: the order is that of `magWordValue`, and 448, 464 and 480 lie in the binade of 256. -/
theorem magnitudeWordOrder : Obligations.MagnitudeWordOrder := by
  refine ⟨fun _ _ _ _ => wordMag_le_iff_abs, fun w => ?_, ?_, ?_, ?_, wordIsInf_iff_mag⟩
  · rw [val32_isSome_iff, wordIsFinite_iff, BitVec.le_def]
    rfl
  · rw [val32_of_binade_256 (n := 0x600000) rfl rfl rfl]
    norm_num
  · rw [val32_of_binade_256 (n := 0x680000) rfl rfl rfl]
    norm_num
  · rw [val32_of_binade_256 (n := 0x700000) rfl rfl rfl]
    norm_num

/-! ### The invariant (R24, R25, R35, R69) -/

/-- The stage a cycle feeds in holds the result of the command word on the port (R69). -/
theorem stageOf_data (cfg : Config) (p : PortIn) : (stageOf cfg p).data = coreResult cfg p.reqOp p.reqA := rfl

/-- A reset edge leaves no valid stage, and a shift adds one result, so nothing but results is in flight after a cycle. -/
theorem pipeHoldsResults_edgeState {s : State} (h : PipeHoldsResults s) : PipeHoldsResults (edgeState s) := by
  intro st hst hv
  cases hr : resetActive s
  case true =>
    rw [edgeState_of_reset hr, resetEdgeState_pipe] at hst
    rw [clearedStages_invalid hst] at hv
    cases hv
  case false =>
    rw [edgeState_of_no_reset hr, shiftEdge_pipe] at hst
    rw [edgeState_cfg]
    rcases mem_shift hst with rfl | hold
    · exact ⟨_, _, stageOf_data s.cfg s.port⟩
    · exact h st hold hv

theorem pipeHoldsResults_nextInputs {s : State} (h : PipeHoldsResults s) : PipeHoldsResults (nextInputs s) := by
  intro st hst hv
  rw [nextInputs_pipe] at hst
  rw [nextInputs_cfg]
  exact h st hst hv

/-- A cycle keeps the invariant. -/
theorem inv_next {s : State} (h : Inv s) : Inv (nextInputs (edgeState s)) where
  legal := by rw [nextInputs_cfg, edgeState_cfg]; exact h.legal
  length := pipeLength_next h.length
  results := pipeHoldsResults_nextInputs (pipeHoldsResults_edgeState h.results)

/-- Where only results are in flight, a valid response is a result: it is stage 0 or a stage of the pipeline. -/
theorem responseNow_of_valid {s : State} (h : PipeHoldsResults s) (hv : (responseNow s).valid = true) :
    ∃ (op : BitVec 1) (a : Word), (responseNow s).y = some (coreResult s.cfg op a) := by
  unfold responseNow at *
  have hlast : ∃ (op : BitVec 1) (a : Word),
      (lastStage s (stageOf s.cfg s.port)).data = coreResult s.cfg op a := by
    rcases lastStage_mem s (stageOf s.cfg s.port) with h0 | hmem
    · exact ⟨_, _, by rw [h0, stageOf_data]⟩
    · exact h _ hmem hv
  obtain ⟨op, a, hd⟩ := hlast
  refine ⟨op, a, ?_⟩
  rw [portOut_valid] at hv
  rw [← hd]
  exact if_pos (.inr hv)

/-- Settles O38: the step's one next state keeps each part of the invariant, and its response is the last stage. -/
theorem stepKeepsInv : Obligations.StepKeepsInv := by
  intro s t hinv hstep
  obtain ⟨-, rfl⟩ := step_next hstep
  refine ⟨inv_next hinv, by simp, fun hv => ?_⟩
  rw [nextInputs_rsp, edgeState_rsp] at hv ⊢
  exact responseNow_of_valid hinv.results hv

/-- No stage is valid after reset, so the invariant asks nothing of the stages there. -/
theorem inv_resetWith {cfg : Config} (h : cfg.legal = true) : Inv (State.resetWith cfg) where
  legal := h
  length := clearedStages_length cfg.latency 0
  results := by
    intro st hst hv
    rw [clearedStages_invalid hst] at hv
    cases hv

/-- Settles O37: the default configuration is a legal one. -/
theorem invAtReset : Obligations.InvAtReset :=
  ⟨fun _ h => inv_resetWith h, inv_resetWith (by decide)⟩

/-- Settles O36: the stages are the cleared ones, and the default configuration has none. -/
theorem stateAfterReset : Obligations.StateAfterReset := by
  refine ⟨fun cfg => ⟨rfl, clearedStages_length cfg.latency 0, fun st hst => clearedStages_invalid hst⟩, ?_⟩
  exact ⟨rfl, rfl, rfl, rfl, rfl, rfl, rfl, rfl, rfl, rfl, rfl⟩

/-! ### Runs (R24, R231, R233) -/

/-- Settles O39, by induction on the number of cycles: no edge and no next pins touch the configuration. -/
theorem parametersNeverChange : Obligations.ParametersNeverChange := by
  intro n
  induction n with
  | zero =>
    intro s t h
    cases h
    exact ⟨rfl, id⟩
  | succ n ih =>
    intro s t h
    obtain ⟨u, hstep, hrun⟩ := runCycles_succ_next h
    obtain ⟨-, rfl⟩ := step_next hstep
    obtain ⟨hcfg, hlen⟩ := ih _ _ hrun
    exact ⟨by rw [hcfg, nextInputs_cfg, edgeState_cfg], fun hs => hlen (pipeLength_next hs)⟩

/-- The stage the response port shows is the last of stage 0 and the registers. -/
theorem getLast?_cons_pipe (s : State) (st0 : Stage) : (st0 :: s.pipe).getLast? = some (lastStage s st0) := by
  rw [List.getLast?_cons, lastStage, List.getLastD_eq_getLast?]

theorem resetActive_of_rst_low {s : State} (h : s.port.rst = false) : resetActive s = false := by
  simp [resetActive, h]

/-- A stage with `behind` between it and the response port shows there `behind.length` cycles later, if no cycle before
that one is a reset: each shift takes the last stage of `behind` away, whatever enters in front. -/
theorem rsp_of_stage {behind : List Stage} {st : Stage} :
    ∀ {front : List Stage} {s t : State}, stageOf s.cfg s.port :: s.pipe = front ++ st :: behind →
      (∀ p ∈ pinsOver behind.length s, p.rst = false) → runCycles (behind.length + 1) s = .next t →
      t.rsp = portOut s.cfg st := by
  induction behind using List.reverseRecOn with
  | nil =>
    intro front s t hstages _ hrun
    obtain ⟨u, hstep, hdone⟩ := runCycles_succ_next hrun
    obtain ⟨-, rfl⟩ := step_next hstep
    cases hdone
    have hlast := getLast?_cons_pipe s (stageOf s.cfg s.port)
    rw [hstages, List.getLast?_append_cons, List.getLast?_singleton, Option.some.injEq] at hlast
    rw [nextInputs_rsp, edgeState_rsp, responseNow, ← hlast]
  | append_singleton behind x ih =>
    intro front s t hstages hpins hrun
    rw [List.length_append, List.length_singleton] at hpins hrun
    obtain ⟨u, hstep, hrest⟩ := runCycles_succ_next hrun
    obtain ⟨-, rfl⟩ := step_next hstep
    have hrst : s.port.rst = false := hpins _ List.mem_cons_self
    have hpipe : (nextInputs (edgeState s)).pipe = front ++ st :: behind := by
      rw [nextInputs_pipe, edgeState_of_no_reset (resetActive_of_rst_low hrst), shiftEdge_pipe, hstages,
        ← List.cons_append, ← List.append_assoc, List.dropLast_concat]
    have hshown := ih (front := _ :: front) (congrArg (List.cons _) hpipe)
      (fun p hp => hpins p (List.mem_cons_of_mem _ (by rwa [pinsOver_next] at hp))) hrest
    rwa [nextInputs_cfg, edgeState_cfg] at hshown

/-- What the request port feeds in shows on the response port `LATENCY` cycles later, valid or not (R231). -/
theorem rsp_after_latency {s t : State} (hlen : PipeLength s)
    (hpins : ∀ p ∈ pinsOver s.cfg.latency s, p.rst = false) (hrun : runCycles (s.cfg.latency + 1) s = .next t) :
    t.rsp = portOut s.cfg (stageOf s.cfg s.port) := by
  rw [← hlen] at hpins hrun
  exact rsp_of_stage (front := []) rfl hpins hrun

/-- Settles O42: either response is a function of the configuration and the request alone. -/
theorem noRequestObservesAnother : Obligations.NoRequestObservesAnother := by
  intro s1 s2 t1 t2 hcfg hlen1 hlen2 hvalid hop ha hpins1 hpins2 hrun1 hrun2
  have hstage : stageOf s1.cfg s1.port = stageOf s2.cfg s2.port := by
    unfold stageOf
    rw [hcfg, hvalid, hop, ha]
  rw [rsp_after_latency hlen1 hpins1 hrun1, rsp_after_latency hlen2 hpins2 hrun2, hstage, hcfg]

end Sys2Proof.Machine

/-! The family of spec/20_memory.md: the response port as the front of the queue of stages, and several instances side by
side. -/

namespace Sys2Proof.Machine

/-! ### Responses in request order (R49, R231) -/

/-- A shift shows the stage that leaves it: read from the response port, the stages and the one fed in behind them are the
stage shown, then the stages after the shift. -/
theorem reverse_pipe_append (s : State) (st0 : Stage) :
    s.pipe.reverse ++ [st0] = lastStage s st0 :: (shiftEdge s st0).pipe.reverse := by
  have hsplit : (shiftEdge s st0).pipe ++ [lastStage s st0] = st0 :: s.pipe :=
    List.dropLast_append_getLast? _ (getLast?_cons_pipe s st0)
  simpa using (congrArg List.reverse hsplit).symm

/-- No reset acts in a cycle without `rst`, nor in any cycle with `LATENCY` = 0. -/
theorem resetActive_of_rst_low_of_latency {s : State} (h : 0 < s.cfg.latency → s.port.rst = false) :
    resetActive s = false := by
  rcases Nat.eq_zero_or_pos s.cfg.latency with h0 | hpos
  · simp [resetActive, h0]
  · exact resetActive_of_rst_low (h hpos)

/-- In a safe run without a reset the response port shows the stages in flight, then those the request port feeds in. -/
theorem responsesOver_of_safeRun {n : Nat} :
    ∀ {s : State}, SafeRun n s → (0 < s.cfg.latency → ∀ p ∈ pinsOver n s, p.rst = false) →
      responsesOver n s =
        ((s.pipe.reverse ++ (pinsOver n s).map (stageOf s.cfg)).take n).map (portOut s.cfg) := by
  induction n with
  | zero =>
    intro s _ _
    rfl
  | succ n ih =>
    intro s hsafe hpins
    obtain ⟨hcycle, hrest⟩ := hsafe
    have hstep := step_of_safe hcycle
    have hreset : resetActive s = false :=
      resetActive_of_rst_low_of_latency fun hl => hpins hl _ List.mem_cons_self
    have hlater := ih (hrest _ hstep) fun hl p hp => by
      rw [nextInputs_cfg, edgeState_cfg] at hl
      rw [pinsOver_next] at hp
      exact hpins hl p (List.mem_cons_of_mem _ hp)
    rw [nextInputs_cfg, nextInputs_pipe, pinsOver_next, edgeState_cfg, edgeState_of_no_reset hreset] at hlater
    have hqueue : s.pipe.reverse ++ (pinsOver (n + 1) s).map (stageOf s.cfg) =
        lastStage s (stageOf s.cfg s.port) :: ((shiftEdge s (stageOf s.cfg s.port)).pipe.reverse ++
          (pinsOver n (nextInputs s)).map (stageOf s.cfg)) := by
      rw [pinsOver, List.map_cons, List.append_cons, reverse_pipe_append, List.cons_append]
    rw [responsesOver_succ hstep, hqueue, List.take_succ_cons, List.map_cons, nextInputs_rsp, edgeState_rsp,
      edgeState_of_no_reset hreset, hlater, responseNow]

/-- Settles O41, by induction on the number of cycles: each takes the front of the queue of stages and feeds in its end. -/
theorem responsesInRequestOrder : Obligations.ResponsesInRequestOrder :=
  fun _ _ _ hsafe hpins => responsesOver_of_safeRun hsafe hpins

/-! ### Instances (R54, R211) -/

/-- What a cycle of one instance can do: step the state at its place and put the next state there. -/
theorem stepInstance_eq_some {k : Nat} {sys sys' : Instances} :
    stepInstance k sys = some sys' ↔ ∃ s t, sys[k]? = some s ∧ step s = .next t ∧ sys' = sys.set k t := by
  unfold stepInstance
  cases hget : sys[k]? with
  | none => simp
  | some s => cases hstep : step s <;> simp [hstep, eq_comm]

/-- Cycles of two different instances that run in one order run in the other, with the same outcome. -/
theorem stepInstance_swap {sys sys' : Instances} {j k : Nat} (hjk : j ≠ k)
    (h : (stepInstance j sys).bind (stepInstance k) = some sys') :
    (stepInstance k sys).bind (stepInstance j) = some sys' := by
  obtain ⟨mid, hj, hk⟩ := Option.bind_eq_some_iff.mp h
  obtain ⟨s, t, hs, hst, rfl⟩ := stepInstance_eq_some.mp hj
  obtain ⟨u, v, hu, huv, rfl⟩ := stepInstance_eq_some.mp hk
  rw [List.getElem?_set_ne hjk] at hu
  refine Option.bind_eq_some_iff.mpr ⟨sys.set k v, stepInstance_eq_some.mpr ⟨u, v, hu, huv, rfl⟩,
    stepInstance_eq_some.mpr ⟨s, t, ?_, hst, List.set_comm t v hjk⟩⟩
  rw [List.getElem?_set_ne hjk.symm, hs]

/-- Settles O47: a cycle of an instance writes its own place in the list and reads no other. -/
theorem instancesIndependent : Obligations.InstancesIndependent := by
  refine ⟨fun sys sys' k h => ?_, fun sys k s t hs hst => stepInstance_eq_some.mpr ⟨s, t, hs, hst, rfl⟩,
    fun sys j k hjk => Option.ext fun _ => ⟨stepInstance_swap hjk, stepInstance_swap hjk.symm⟩⟩
  obtain ⟨s, t, hs, hst, rfl⟩ := stepInstance_eq_some.mp h
  obtain ⟨hk, -⟩ := List.getElem?_eq_some_iff.mp hs
  exact ⟨List.length_set, fun j hj => List.getElem?_set_ne hj.symm, s, t, hs, hst, List.getElem?_set_self hk⟩

end Sys2Proof.Machine

/-! The family of spec/30_encoding.md: command words, the assembler form, the way of one request to its response, and
QUANT, which is nearest by value because DEC is exact and RND is nearest. -/

namespace Sys2Proof

open Sys2Proof.Machine

/-! ### Command words (R64, R65, R71, R72) -/

theorem decodeCmd_encodeCmd (i : Instr) : decodeCmd (encodeCmd i) = i := by
  unfold encodeCmd
  rw [decodeCmd_fields]
  cases i <;> rfl

/-- The fields the decoder keeps are the whole command word. -/
theorem encodeCmd_decodeCmd (cmd : Cmd) : encodeCmd (decodeCmd cmd) = cmd := by
  rw [← cmd_eq_fields cmd, decodeCmd_fields]
  rcases bit_cases (cmd.extractLsb' 32 1) with hop | hop <;> rw [hop] <;> rfl

/-- What the decoder accepts from the opcode table: the command words, as numbers. -/
theorem decodeTableWord_eq_some {n w : Nat} {i : Instr} :
    decodeTableWord n w = some i ↔ w < 2 ^ 33 ∧ decodeCmd (BitVec.ofNat 33 w) = i := by
  by_cases hw : w < 2 ^ 33
  · rw [decodeTableWord_of_lt hw, Option.some.injEq, and_iff_right hw]
  · rw [decodeTableWord_of_ge (not_lt.mp hw)]
    exact ⟨nofun, fun h => absurd h.1 hw⟩

/-- Presenting a number puts its 33-bit command word on the request port (R63, R64). -/
@[simp] theorem fetchCmd_withFetchWord (s : State) (n w : Nat) :
    fetchCmd (s.withFetchWord n w) = BitVec.ofNat 33 w := cmd_eq_fields (BitVec.ofNat 33 w)

/-- Settles O4: the two fields of R64 are the whole request and the whole command word. -/
theorem decodeOfEncode : Obligations.DecodeOfEncode := by
  intro i _
  have hword : BitVec.ofNat 33 (encodeCmd i).toNat = encodeCmd i := by rw [BitVec.ofNat_toNat, BitVec.setWidth_eq]
  refine ⟨decodeCmd_encodeCmd i, fun n => ?_, fun n s => ?_⟩
  · rw [decodeTableWord_eq_some, hword]
    exact ⟨(encodeCmd i).isLt, decodeCmd_encodeCmd i⟩
  · rw [fetchCmd_withFetchWord, hword]

theorem wellFormed_all (i : Instr) : i.wellFormed = true := by cases i <;> rfl

/-- Settles O3: below 2^33 decoder and encoder are inverse to each other, and above it nothing decodes. -/
theorem everyCommandWordIsOneRequest : Obligations.EveryCommandWordIsOneRequest := by
  refine fun n w => ⟨fun hw => ?_, decodeTableWord_of_ge⟩
  refine ⟨decodeCmd (BitVec.ofNat 33 w), decodeTableWord_of_lt hw, wellFormed_all _, ?_, ?_⟩
  · rw [encodeCmd_decodeCmd, BitVec.toNat_ofNat, Nat.mod_eq_of_lt hw]
  · rintro j rfl
    rw [BitVec.ofNat_toNat, BitVec.setWidth_eq, decodeCmd_encodeCmd]

/-- Settles O1. -/
theorem commandWordsDecode : Obligations.CommandWordsDecode := by
  unfold Obligations.CommandWordsDecode
  decide

/-- The mask of the opcode map keeps bit 32 (R65). -/
theorem and_opMask (cmd : Cmd) : cmd &&& opMask = if cmd.getLsbD 32 then opMask else decodeMatch :=
  BitVec.and_twoPow cmd 32

/-- The decoder reads bit 32 (R65). -/
theorem decodeCmd_eq (cmd : Cmd) :
    decodeCmd cmd =
      if cmd.getLsbD 32 then .encode (cmd.extractLsb' 0 32) else .decode (cmd.extractLsb' 0 32) := by
  unfold decodeCmd
  rw [and_opMask]
  cases cmd.getLsbD 32 <;> rfl

/-- Settles O2: under the mask a word is one match value or the other, as its bit 32 says. -/
theorem opcodeMap : Obligations.OpcodeMap := by
  intro cmd
  have hmask := and_opMask cmd
  have hdecode := decodeCmd_eq cmd
  unfold opMask decodeMatch at hmask
  rw [hmask, hdecode]
  cases cmd.getLsbD 32 <;> simp

end Sys2Proof

namespace Sys2Proof.Machine

/-! ### The assembler form (R74) -/

/-- A literal of `n` digits reads back as the number it writes. -/
theorem readLiteral_hexDigits {n v : Nat} (h : v < 16 ^ n) : readLiteral n (hexDigits n v) = some v := by
  unfold readLiteral
  rw [if_pos (hexDigits_length n v), readHex_hexDigits, Nat.mod_eq_of_lt h, Nat.zero_mul, Nat.zero_add]

theorem assemble_decodeHead (cs : List Char) :
    assemble (decodeHead ++ cs) =
      (readLiteral 2 cs).map fun v => .decode (BitVec.setWidth 32 (BitVec.ofNat 8 v)) := rfl

theorem assemble_encodeHead (cs : List Char) :
    assemble (encodeHead ++ cs) = (readLiteral 8 cs).map fun v => .encode (BitVec.ofNat 32 v) := rfl

/-- `DECODE 0xHH` (R74). -/
theorem assemble_decode (b : Code) : assemble (decodeHead ++ hexDigits 2 b.toNat) = some (.decode (b.setWidth 32)) := by
  rw [assemble_decodeHead, readLiteral_hexDigits b.isLt, Option.map_some, BitVec.ofNat_toNat, BitVec.setWidth_eq]

/-- `ENCODE 0xHHHHHHHH` (R74). -/
theorem assemble_encode (w : Word) : assemble (encodeHead ++ hexDigits 8 w.toNat) = some (.encode w) := by
  rw [assemble_encodeHead, readLiteral_hexDigits w.isLt, Option.map_some, BitVec.ofNat_toNat, BitVec.setWidth_eq]

theorem decodeOperand_toNat (a : Word) : (decodeOperand a).toNat = a.toNat % 256 := by
  have h := toNat_slice a 0 8
  rwa [pow_zero, Nat.div_one] at h

/-- The operand field of a DECODE with an assembler form is its byte, zero-extended. -/
theorem zext_decodeOperand_of_writable {a : Word} (h : Instr.writable (.decode a) = true) :
    (decodeOperand a).setWidth 32 = a := by
  have hhigh := congrArg BitVec.toNat (beq_iff_eq.mp h)
  rw [toNat_slice] at hhigh
  apply BitVec.eq_of_toNat_eq
  have ha := a.isLt
  rw [BitVec.toNat_ofNat] at hhigh
  rw [BitVec.toNat_setWidth, decodeOperand_toNat]
  omega

/-- Settles O5: a text is its head and the digits of its literal, and the digits read back. -/
theorem assemblerRoundTrip : Obligations.AssemblerRoundTrip := by
  refine ⟨fun i hi => ?_, assemble_decode, assemble_encode⟩
  cases i with
  | decode a =>
    rw [disassemble, ← decodeOperand_toNat, assemble_decode, zext_decodeOperand_of_writable hi]
  | encode w => exact assemble_encode w

/-! ### Results on the response port (R66 to R69) -/

theorem coreResult_decode (cfg : Config) (a : Word) : coreResult cfg 0#1 a = dec cfg (decodeOperand a) := rfl

theorem coreResult_encode (cfg : Config) (a : Word) : coreResult cfg 1#1 a = placeEncoded (enc cfg a) := rfl

/-- The byte DECODE reads from an ENCODE's response is its code (R66, R68). -/
@[simp] theorem decodeOperand_placeEncoded (b : Code) : decodeOperand (placeEncoded b) = b := by
  apply BitVec.eq_of_toNat_eq
  have := b.isLt
  rw [decodeOperand_toNat, placeEncoded, zext, BitVec.toNat_setWidth]
  omega

theorem placeEncoded_high (b : Code) : (placeEncoded b).extractLsb' 8 24 = 0#24 := by
  apply BitVec.eq_of_toNat_eq
  have := b.isLt
  rw [toNat_slice, placeEncoded, zext, BitVec.toNat_setWidth, BitVec.toNat_ofNat]
  omega

/-- Settles O29: DECODE's response is DEC of the low byte, ENCODE's is the code zero-extended. -/
theorem resultPlacement : Obligations.ResultPlacement := by
  refine fun cfg a => ⟨coreResult_decode cfg a, fun a' h => ?_, ?_, ?_⟩
  · rw [coreResult_decode, coreResult_decode, decodeOperand, decodeOperand, h]
  · exact decodeOperand_placeEncoded (enc cfg a)
  · exact placeEncoded_high (enc cfg a)

/-! ### One step (R64, R69, R230, R231) -/

/-- The host's read, said as one condition (R206). -/
theorem hostRead_eq (t : State) :
    hostRead t = if t.port.readY = true ∧ t.rsp.y = none then .fault .rspYHoldsNoValue else .next t := by
  split
  · next h => exact hostRead_of_no_value h.1 h.2
  · next h => exact hostRead_of_value fun hr => Option.isSome_iff_ne_none.mpr fun hy => h ⟨hr, hy⟩

/-- The read and the next pins after a cycle of the CORE. -/
theorem step_eq (s : State) :
    step s = andThen (runCycle s) fun t =>
      if t.port.readY = true ∧ t.rsp.y = none then .fault .rspYHoldsNoValue else .next (nextInputs t) := by
  unfold step runCycleAndAdvance
  cases runCycle s with
  | next t =>
    by_cases hread : t.port.readY = true ∧ t.rsp.y = none <;> simp [andThen, hostRead_eq, hread]
  | fault e => rfl
  | refused e => rfl

theorem resetActive_of_rst_low_or_combinational {s : State} (h : s.port.rst = false ∨ s.cfg.latency = 0) :
    resetActive s = false :=
  resetActive_of_rst_low_of_latency fun hl => h.resolve_right hl.ne'

/-- The CORE's part of a cycle with a request and no reset is the meaning of the presented command word. -/
theorem runCycle_of_request {s : State} (hv : s.port.reqValid = true) (hr : resetActive s = false) :
    runCycle s = exec (decodeCmd (fetchCmd s)) s := by
  simp [runCycle, hv, hr]

/-- Settles O32: with a request and no reset the CORE's part of the cycle is `exec` of the word on the port. -/
theorem stepRunsThePresentedRequest : Obligations.StepRunsThePresentedRequest := by
  refine ⟨fun s hv hr => ?_, fun s n w i hi => ?_, fun s p ps h => ?_, fun s h => ?_⟩
  · rw [step_eq, runCycle_of_request hv (resetActive_of_rst_low_or_combinational hr)]
  · obtain ⟨-, rfl⟩ := decodeTableWord_eq_some.mp hi
    rw [step_eq, runCycle_of_request rfl (resetActive_of_rst_low rfl), fetchCmd_withFetchWord]
  · simp only [nextInputs, h]
  · simp only [nextInputs, h, PortIn.hold]

/-- With `LATENCY` = 0 the response port shows what the request port feeds in, whatever `req_valid` (R69). -/
theorem portOut_of_combinational {cfg : Config} (h : cfg.latency = 0) (st : Stage) :
    portOut cfg st = ⟨st.valid, some st.data⟩ := by
  simp [portOut, h]

/-- Settles O34: with no registers the last stage is stage 0, and no reset acts. -/
theorem combinationalResponse : Obligations.CombinationalResponse := by
  intro s hl h0 hlen
  have hpipe : s.pipe = [] := List.length_eq_zero_iff.mp (hlen.trans h0)
  have hedge := edgeState_of_no_reset (resetActive_of_rst_low_or_combinational (.inr h0))
  refine ⟨_, step_of_safe (safeCycle_of_combinational hl h0), ?_, ?_, ?_⟩
  · rw [nextInputs_rsp, edgeState_rsp, responseNow, lastStage, hpipe, List.getLastD_nil, portOut_of_combinational h0]
    rfl
  · rw [nextInputs_pipe, hedge, shiftEdge_pipe, hpipe]
    rfl
  · rw [nextInputs_cfg, edgeState_cfg]

/-! ### One request to its response (R25, R69, R231) -/

/-- A cycle without a reset moves every stage one place on, and the last one leaves. -/
theorem pipe_next_of_stages {s : State} {stages : List Stage} {last : Stage} (hrst : s.port.rst = false)
    (h : stageOf s.cfg s.port :: s.pipe = stages ++ [last]) : (nextInputs (edgeState s)).pipe = stages := by
  rw [nextInputs_pipe, edgeState_of_no_reset (resetActive_of_rst_low hrst), shiftEdge_pipe, h, List.dropLast_concat]

/-- A cycle completes when the stage the response port shows is valid, whether or not the host reads. -/
theorem safeCycle_of_valid_last {s : State} {front : List Stage} {st : Stage} (hl : s.cfg.legal = true)
    (hv : st.valid = true) (h : stageOf s.cfg s.port :: s.pipe = front ++ [st]) : SafeCycle s := by
  have hlast := getLast?_cons_pipe s (stageOf s.cfg s.port)
  rw [h, List.getLast?_concat, Option.some.injEq] at hlast
  exact ⟨hl, fun _ => by rw [responseNow, ← hlast, portOut_isSome]; exact .inr hv⟩

/-- The run until a valid stage with `behind` between it and the response port shows there completes, if no cycle before
that one is a reset or reads; the cycle in which it shows may read. -/
theorem runCycles_of_valid_stage {behind : List Stage} {st : Stage} (hv : st.valid = true) :
    ∀ {front : List Stage} {s : State}, s.cfg.legal = true →
      stageOf s.cfg s.port :: s.pipe = front ++ st :: behind →
      (∀ p ∈ pinsOver behind.length s, p.rst = false ∧ p.readY = false) →
      ∃ t, runCycles (behind.length + 1) s = .next t := by
  induction behind using List.reverseRecOn with
  | nil =>
    intro front s hl hstages _
    exact ⟨_, runCycles_succ (step_of_safe (safeCycle_of_valid_last hl hv hstages))⟩
  | append_singleton behind last ih =>
    intro front s hl hstages hpins
    rw [List.length_append, List.length_singleton] at hpins ⊢
    obtain ⟨hrst, hread⟩ := hpins _ List.mem_cons_self
    rw [← List.cons_append, ← List.append_assoc] at hstages
    have hpipe := pipe_next_of_stages hrst hstages
    rw [runCycles_succ (step_of_safe (safeCycle_of_no_read hl hread))]
    refine ih (front := _ :: front) (by rwa [nextInputs_cfg, edgeState_cfg]) (congrArg (List.cons _) hpipe) ?_
    rw [pinsOver_next]
    exact fun p hp => hpins p (List.mem_cons_of_mem _ hp)

/-- A request with no reset and no read before its response completes `LATENCY` cycles later with its `core(op, a)`. -/
theorem request_completes {s : State} (hl : s.cfg.legal = true) (hlen : PipeLength s) (hv : s.port.reqValid = true)
    (hpins : ∀ p ∈ pinsOver s.cfg.latency s, p.rst = false ∧ p.readY = false) :
    ∃ t, runCycles (s.cfg.latency + 1) s = .next t ∧
      t.rsp = ⟨true, some (coreResult s.cfg s.port.reqOp s.port.reqA)⟩ := by
  have hrun : ∃ t, runCycles (s.cfg.latency + 1) s = .next t := by
    rw [← hlen] at hpins ⊢
    exact runCycles_of_valid_stage (front := []) hv hl rfl hpins
  obtain ⟨t, ht⟩ := hrun
  refine ⟨t, ht, ?_⟩
  rw [rsp_after_latency hlen (fun p hp => (hpins p hp).1) ht, stageOf, hv, portOut_of_valid]

/-! ### Host statements (R74, R75) -/

/-- As long as the host has listed pins, those are the pins of the coming cycles. -/
theorem pinsOver_eq_take {n : Nat} : ∀ {s : State}, n ≤ s.upcoming.length + 1 →
    pinsOver n s = (s.port :: s.upcoming).take n := by
  induction n with
  | zero => exact fun _ => rfl
  | succ n ih =>
    intro s h
    rw [pinsOver, List.take_succ_cons]
    cases hup : s.upcoming with
    | nil =>
      obtain rfl : n = 0 := by simpa [hup] using h
      rfl
    | cons p ps =>
      rw [hup, List.length_cons] at h
      rw [ih (by rw [nextInputs_upcoming, hup, List.tail_cons]; omega), nextInputs_port, nextInputs_upcoming, hup]
      rfl

/-- Until the response of the request it drives, the host resets nothing and reads nothing. -/
theorem driveRequest_pins (op : BitVec 1) (a : Word) (s : State) :
    ∀ p ∈ pinsOver s.cfg.latency (driveRequest op a s), p.rst = false ∧ p.readY = false := by
  intro p hp
  cases hlat : s.cfg.latency with
  | zero => simp [hlat, pinsOver] at hp
  | succ n =>
    have hup : (driveRequest op a s).upcoming =
        List.replicate n PortIn.quiet ++ [{ PortIn.quiet with readY := true }] := by
      simp [driveRequest, hlat]
    have hread : (driveRequest op a s).port.readY = false := by simp [driveRequest, hlat]
    rw [hlat, pinsOver_eq_take (by simp [hup]), hup, List.take_succ_cons,
      List.take_left' List.length_replicate, List.mem_cons] at hp
    rcases hp with rfl | hquiet
    · exact ⟨driveRequest_rst op a s, hread⟩
    · rw [List.eq_of_mem_replicate hquiet]
      exact ⟨rfl, rfl⟩

/-- One request of a host program stores its `core(op, a)`, and the CORE is ready for the next. -/
theorem runReq_completes {vars : HostVars} {s : State} {a : Word} (r : HostReq) (hl : s.cfg.legal = true)
    (hlen : PipeLength s) (ha : hostGet vars r.src = some a) :
    ∃ t, runReq r (vars, s) = some (hostSet vars r.dst (coreResult s.cfg r.op a), t) ∧ t.cfg = s.cfg ∧
      PipeLength t := by
  obtain ⟨t, hrun, hrsp⟩ := request_completes (s := driveRequest r.op a s) hl hlen rfl (driveRequest_pins r.op a s)
  obtain ⟨hcfg, hkeep⟩ := parametersNeverChange _ _ _ hrun
  refine ⟨t, ?_, hcfg, hkeep hlen⟩
  rw [driveRequest_cfg] at hrun
  simp [runReq, ha, hrun, hrsp]

theorem hostGet_hostSet_same (vars : HostVars) (n : Nat) (v : Word) : hostGet (hostSet vars n v) n = some v := by
  rw [hostGet_hostSet, if_pos rfl]

theorem hostGet_hostSet_of_ne (vars : HostVars) {n m : Nat} (v : Word) (h : m ≠ n) :
    hostGet (hostSet vars n v) m = hostGet vars m := by
  rw [hostGet_hostSet, if_neg h]

/-- A statement of one request stores its response in its destination and touches no other variable. -/
theorem runReqs_single {vars : HostVars} {s : State} {a : Word} (r : HostReq) (hl : s.cfg.legal = true)
    (hlen : PipeLength s) (ha : hostGet vars r.src = some a) :
    ∃ vars' t, runReqs [r] (vars, s) = some (vars', t) ∧ hostGet vars' r.dst = some (coreResult s.cfg r.op a) ∧
      ∀ n, n ≠ r.dst → hostGet vars' n = hostGet vars n := by
  obtain ⟨t, hrun, -⟩ := runReq_completes r hl hlen ha
  exact ⟨_, t, by simp [runReqs, hrun], hostGet_hostSet_same _ _ _, fun n hn => hostGet_hostSet_of_ne _ _ hn⟩

/-- The variable QUANT adds is above the statement's own and every stored one. -/
theorem lt_freshVar_quant {vars : HostVars} {dst src n : Nat} (h : n ∈ max dst src :: vars.map Prod.fst) :
    n < freshVar vars (.quant dst src) := Nat.lt_succ_of_le (List.le_max_of_mem h)

/-- The variable QUANT adds is fresh (R75). -/
theorem freshVar_quant_fresh (vars : HostVars) (dst src : Nat) :
    freshVar vars (.quant dst src) ≠ dst ∧ freshVar vars (.quant dst src) ≠ src ∧
      ∀ p ∈ vars, p.1 ≠ freshVar vars (.quant dst src) := by
  have hown : max dst src < freshVar vars (.quant dst src) := lt_freshVar_quant List.mem_cons_self
  refine ⟨by omega, by omega, fun p hp => ?_⟩
  exact (lt_freshVar_quant (List.mem_cons_of_mem _ (List.mem_map_of_mem hp))).ne

/-- A variable that holds a word is not the one QUANT adds. -/
theorem ne_freshVar_quant_of_hostGet {vars : HostVars} {n : Nat} {v : Word} (dst src : Nat)
    (h : hostGet vars n = some v) : n ≠ freshVar vars (.quant dst src) := by
  obtain ⟨before, after, hvars, -⟩ := List.lookup_eq_some_iff.mp h
  obtain ⟨-, -, hstored⟩ := freshVar_quant_fresh vars dst src
  exact hstored (n, v) (by simp [hvars])

/-- QUANT's two requests: the second decodes what the first stored in the fresh variable (R75). -/
theorem runStmt_quant {vars : HostVars} {s : State} {a : Word} (dst : Nat) {src : Nat} (hl : s.cfg.legal = true)
    (hlen : PipeLength s) (ha : hostGet vars src = some a) :
    ∃ t, runStmt (.quant dst src) (vars, s) =
      some (hostSet (hostSet vars (freshVar vars (.quant dst src)) (coreResult s.cfg 1#1 a)) dst
        (quantWord s.cfg a), t) := by
  let fresh := freshVar vars (.quant dst src)
  obtain ⟨t₁, hrun₁, hcfg₁, hlen₁⟩ := runReq_completes ⟨fresh, 1#1, src⟩ hl hlen ha
  obtain ⟨t₂, hrun₂, -⟩ := runReq_completes ⟨dst, 0#1, fresh⟩ (by rw [hcfg₁, hl]) hlen₁
    (hostGet_hostSet_same vars fresh (coreResult s.cfg 1#1 a))
  rw [hcfg₁] at hrun₂
  exact ⟨t₂, by rw [runStmt, HostStmt.expand, runReqs, hrun₁, Option.bind_some, runReqs, hrun₂]; rfl⟩

/-- Settles O46: every request of a statement completes, and QUANT's second reads the variable its first stores in. -/
theorem hostStatementsStoreResponses : Obligations.HostStatementsStoreResponses := by
  intro vars s dst src a hl hlen ha
  refine ⟨runReqs_single ⟨dst, 0#1, src⟩ hl hlen ha, runReqs_single ⟨dst, 1#1, src⟩ hl hlen ha, ?_⟩
  obtain ⟨t, hrun⟩ := runStmt_quant dst hl hlen ha
  refine ⟨_, t, hrun, hostGet_hostSet_same _ _ _, fun n v hn hv => ?_⟩
  rw [hostGet_hostSet_of_ne _ _ hn, hostGet_hostSet_of_ne _ _ (ne_freshVar_quant_of_hostGet dst src hv), hv]

/-! ### DEC is exact (R101) -/

/-- The subnormal codes' words: leading one at `p`, so `m × 2^-9` (R100). -/
theorem decSub_units : ∀ m : BitVec 3, m ≠ 0#3 →
    1 ≤ (decSubExp m).toNat ∧ (decSubExp m).toNat ≤ 254 ∧
      magWordUnits (decSubExp m).toNat (decSubFrac m).toNat = magCodeUnits m.toNat := by
  decide

/-- The normal codes' words: the exponent rebiased, the fraction three bits long (R100). -/
theorem decNormal_units {e m : Nat} (he : 1 ≤ e) (hm : m < 8) :
    magWordUnits (e + 120) (m * 2 ^ 20) = magCodeUnits (8 * e + m) := by
  have hdiv : (8 * e + m) / 8 = e := by omega
  have hmod : (8 * e + m) % 8 = m := by omega
  unfold magWordUnits magCodeUnits
  rw [if_neg (by omega), if_neg (by omega), hdiv, hmod, show e + 120 - 1 = e + 119 by omega,
    show e + 139 = 20 + (e + 119) by omega, pow_add]
  ring

theorem codeMag_toNat_fields (b : Code) : (codeMag b).toNat = 8 * (codeExp b).toNat + (codeMan b).toNat := by
  rw [codeMag_toNat, codeExp_toNat, codeMan_toNat]
  omega

/-- DEC of a code that is not NaN: the code's sign, an exponent field of at most 254, and the code's magnitude. -/
theorem dec_fields (cfg : Config) {b : Code} (h : codeIsNaN b = false) :
    wordSign (dec cfg b) = codeSign b ∧ (wordExp (dec cfg b)).toNat ≤ 254 ∧
      magWordUnits (wordExp (dec cfg b)).toNat (wordFrac (dec cfg b)).toNat = magCodeUnits (codeMag b).toNat := by
  rw [dec_of_not_nan cfg h, codeMag_toNat_fields]
  by_cases he : codeExp b = 0#4
  · by_cases hm : codeMan b = 0#3
    · simp [he, hm, magWordUnits, magCodeUnits]
    · obtain ⟨-, hE, hunits⟩ := decSub_units (codeMan b) hm
      simp [he, hm, hE, hunits]
  · have hexp := (codeExp b).isLt
    have hman := (codeMan b).isLt
    have hpos : 1 ≤ (codeExp b).toNat := by
      by_contra h0
      exact he (BitVec.eq_of_toNat_eq (by simp; omega))
    have hE : (BitVec.ofNat 8 ((codeExp b).toNat + 120)).toNat = (codeExp b).toNat + 120 := by
      rw [BitVec.toNat_ofNat]; omega
    have hF : (codeMan b ++ 0#20).toNat = (codeMan b).toNat * 2 ^ 20 := by
      rw [toNat_concat, BitVec.toNat_ofNat, Nat.zero_mod, Nat.add_zero]
    rw [if_neg (fun hz => he hz.1), if_neg he, wordSign_pack, wordExp_pack, wordFrac_pack, hE, hF]
    exact ⟨rfl, by omega, decNormal_units hpos hman⟩

theorem wordIsFinite_dec (cfg : Config) {b : Code} (h : codeIsNaN b = false) : wordIsFinite (dec cfg b) = true :=
  (wordIsFinite_iff _).mpr (dec_fields cfg h).2.1

theorem wordSign_dec (cfg : Config) {b : Code} (h : codeIsNaN b = false) : wordSign (dec cfg b) = codeSign b :=
  (dec_fields cfg h).1

theorem magWordValue_dec (cfg : Config) {b : Code} (h : codeIsNaN b = false) :
    magWordValue (wordMag (dec cfg b)) = magCodeValue (codeMag b) := by
  rw [magWordValue_eq_units, magCodeValue_eq_units, magExp_wordMag, magFrac_wordMag, (dec_fields cfg h).2.2]

/-- DEC gives the word of the code's value (R101). -/
theorem val32_dec (cfg : Config) {b : Code} (h : codeIsNaN b = false) : val32 (dec cfg b) = val8 b := by
  rw [val32_of_finite (wordIsFinite_dec cfg h), val8_of_not_nan h, wordSign_dec cfg h, magWordValue_dec cfg h]

/-! ### RND is nearest (R140, R141) -/

/-- The circuit's code is a neighbour of the magnitude, and no code is nearer. -/
theorem RoundBracket.nearest {E F q r half h : Nat} (hb : RoundBracket E F q r half h) (n : Nat) :
    ((magCodeUnits (rndCode E F) : ℤ) - magWordUnits E F).natAbs ≤
      ((magCodeUnits n : ℤ) - magWordUnits E F).natAbs := by
  obtain ⟨-, hbelow, hvalue, hgap, hcode⟩ := hb
  have hside : magCodeUnits n ≤ magCodeUnits q ∨ magCodeUnits (q + 1) ≤ magCodeUnits n := by
    simp only [magCodeUnits_strictMono.le_iff_le]
    omega
  have hin : r * h ≤ 2 * half * h := Nat.mul_le_mul_right h hbelow.le
  rw [Nat.mul_assoc] at hgap hin
  by_cases hup : half < r ∨ (half = r ∧ q % 2 = 1)
  · have hfar : half * h ≤ r * h := Nat.mul_le_mul_right h (by omega)
    rw [hcode, if_pos hup]
    omega
  · have hnear : r * h ≤ half * h := Nat.mul_le_mul_right h (by omega)
    rw [hcode, if_neg hup, Nat.add_zero]
    omega

/-- A circuit code of 127 comes only from a magnitude above code 126, which is 448. -/
theorem RoundBracket.above_max {E F q r half h : Nat} (hb : RoundBracket E F q r half h) (hc : 127 ≤ rndCode E F) :
    magCodeUnits 126 < magWordUnits E F := by
  obtain ⟨hpos, hbelow, hvalue, -, hcode⟩ := hb
  rw [hvalue]
  rcases (by omega : 127 ≤ q ∨ q ≤ 126) with hq | hq
  · exact Nat.lt_add_right _ (magCodeUnits_strictMono hq)
  · have hup : half < r ∨ (half = r ∧ q % 2 = 1) := by
      by_contra hdown
      rw [if_neg hdown] at hcode
      omega
    rw [hcode, if_pos hup] at hc
    obtain rfl : q = 126 := by omega
    exact Nat.lt_add_of_pos_right (Nat.mul_pos (by omega) hpos)

/-- A magnitude with exponent field 136 or more is above 448. -/
theorem above_max_of_large {E F : Nat} (hE : 136 ≤ E) : magCodeUnits 126 < magWordUnits E F := by
  unfold magWordUnits
  rw [if_neg (by omega)]
  calc magCodeUnits 126 < 2 ^ 23 * 2 ^ 135 := by decide
    _ ≤ (2 ^ 23 + F) * 2 ^ (E - 1) := Nat.mul_le_mul (by omega) (Nat.pow_le_pow_right (by omega) (by omega))

/-- What RND can answer: 448 with `ovf` for a magnitude above it, else the circuit's code, which is at most 0x7E. -/
theorem rnd_cases (m : MagWord) :
    ((rnd m).ovf = true ∧ (rnd m).c = maxMagCode ∧ magCodeValue maxMagCode < magWordValue m) ∨
    ((rnd m).ovf = false ∧ (rnd m).c.toNat = rndCode (magExp m).toNat (magFrac m).toNat ∧
      (rnd m).c.toNat ≤ 126) := by
  have habove : magCodeUnits 126 < magWordUnits (magExp m).toNat (magFrac m).toNat →
      magCodeValue maxMagCode < magWordValue m := by
    intro h
    rw [magCodeValue_eq_units, magWordValue_eq_units, div_lt_div_iff_of_pos_right (by positivity)]
    exact_mod_cast h
  by_cases hE : 136 ≤ (magExp m).toNat
  · rw [rnd_of_large hE]
    exact .inl ⟨rfl, rfl, habove (above_max_of_large hE)⟩
  · rw [rnd_of_small (by omega)]
    obtain ⟨q, r, half, h, hb⟩ := rnd_bracket (E := (magExp m).toNat) (magFrac m).isLt
    by_cases hc : 127 ≤ rndCode (magExp m).toNat (magFrac m).toNat
    · rw [if_pos hc]
      exact .inl ⟨rfl, rfl, habove (hb.above_max hc)⟩
    · rw [if_neg hc]
      have hn : (BitVec.ofNat 7 (rndCode (magExp m).toNat (magFrac m).toNat)).toNat =
          rndCode (magExp m).toNat (magFrac m).toNat := by
        rw [BitVec.toNat_ofNat]; omega
      exact .inr ⟨rfl, hn, by rw [hn]; omega⟩

/-- Distances from a magnitude word are compared in steps of 2^-149. -/
theorem dist_le_iff_units {c d : MagCode} {m : MagWord} :
    |magCodeValue c - magWordValue m| ≤ |magCodeValue d - magWordValue m| ↔
      ((magCodeUnits c.toNat : ℤ) - magWordUnits (magExp m).toNat (magFrac m).toNat).natAbs ≤
        ((magCodeUnits d.toNat : ℤ) - magWordUnits (magExp m).toNat (magFrac m).toNat).natAbs := by
  rw [magCodeValue_eq_units, magCodeValue_eq_units, magWordValue_eq_units, ← sub_div, ← sub_div, abs_div, abs_div,
    div_le_div_iff_of_pos_right (by positivity), ← Int.ofNat_le, Int.natCast_natAbs, Int.natCast_natAbs]
  exact_mod_cast Iff.rfl

/-- RND's code is nearest to the magnitude among the codes up to 0x7E, its overflow answer among them (R141). -/
theorem rnd_nearest (m : MagWord) {d : MagCode} (hd : d.toNat ≤ 126) :
    |magCodeValue (rnd m).c - magWordValue m| ≤ |magCodeValue d - magWordValue m| := by
  rcases rnd_cases m with ⟨-, hc, habove⟩ | ⟨-, hc, -⟩
  · have hle : magCodeValue d ≤ magCodeValue maxMagCode := magCodeValue_le_iff.mpr hd
    rw [hc, abs_of_nonpos (by linarith), abs_of_nonpos (by linarith)]
    linarith
  · obtain ⟨q, r, half, h, hb⟩ := rnd_bracket (E := (magExp m).toNat) (magFrac m).isLt
    rw [dist_le_iff_units, hc]
    exact hb.nearest d.toNat

/-- `big` says that the magnitude is above 448 (R140). -/
theorem rnd_big_iff (m : MagWord) : (rnd m).big = true ↔ magCodeValue maxMagCode < magWordValue m := by
  have h448 : magCodeValue maxMagCode = magWordValue 0x43E00000#31 := by
    rw [magCodeValue_eq_units, magWordValue_eq_units]
    exact congrArg (fun n : ℕ => (n : ℚ) / 2 ^ 149) (by decide)
  rw [rnd_big, rndBig, decide_eq_true_iff, h448, magWordValue_lt_iff, BitVec.lt_def]

/-- RND of the magnitude of a code is that code, with neither indication. -/
theorem rnd_of_codeValue {m : MagWord} {c : MagCode} (hc : c.toNat ≤ 126) (hv : magWordValue m = magCodeValue c) :
    rnd m = ⟨c, false, false⟩ := by
  have hwithin : ¬ magCodeValue maxMagCode < magWordValue m := by
    rw [hv, not_lt, magCodeValue_le_iff]
    exact hc
  have hovf : (rnd m).ovf = false := by
    rcases rnd_cases m with ⟨-, -, habove⟩ | ⟨hovf, -⟩
    · exact absurd habove hwithin
    · exact hovf
  have hbig : (rnd m).big = false := by rwa [← Bool.not_eq_true, rnd_big_iff]
  have hcode : (rnd m).c = c := by
    have hnear := rnd_nearest m hc
    rw [hv, sub_self, abs_zero, abs_nonpos_iff, sub_eq_zero] at hnear
    exact BitVec.eq_of_toNat_eq
      (le_antisymm (magCodeValue_le_iff.mp hnear.le) (magCodeValue_le_iff.mp hnear.ge))
  calc rnd m = ⟨(rnd m).c, (rnd m).ovf, (rnd m).big⟩ := rfl
    _ = ⟨c, false, false⟩ := by rw [hcode, hovf, hbig]

/-- ENC gives back the code DEC decoded (R125). -/
theorem enc_dec (cfg : Config) {b : Code} (h : codeIsNaN b = false) : enc cfg (dec cfg b) = b := by
  have hrnd := rnd_of_codeValue ((codeIsNaN_false_iff b).mp h) (magWordValue_dec cfg h)
  rw [enc_of_within cfg (wordIsFinite_dec cfg h) (by rw [hrnd]) (by rw [hrnd]), hrnd, wordSign_dec cfg h,
    packCode_fields]

/-! ### QUANT (R75) -/

theorem quantWord_eq (cfg : Config) (w : Word) : quantWord cfg w = dec cfg (enc cfg w) :=
  congrArg (dec cfg) (decodeOperand_placeEncoded (enc cfg w))

/-- Settles O45: the quantised word is DEC of a code, which ENC gives back. -/
theorem quantIdempotent : Obligations.QuantIdempotent := by
  intro cfg w _ hnan
  rw [quantWord_eq cfg w, quantWord_eq, enc_dec cfg hnan]

theorem codeIsNaN_encNan (cfg : Config) (s : BitVec 1) : codeIsNaN (encNan cfg s) = true := by
  rw [codeIsNaN_iff, (encNan_fields cfg s).1]
  rfl

/-- A finite word that does not encode to a NaN code encodes to its sign and RND's code (R120). -/
theorem enc_of_finite_not_nan (cfg : Config) {w : Word} (hf : wordIsFinite w = true)
    (hnan : codeIsNaN (enc cfg w) = false) : enc cfg w = packCode (wordSign w) (rnd (wordMag w)).c := by
  rw [enc_of_finite cfg hf, encFinite_eq] at hnan ⊢
  split
  · next hovf =>
    rw [if_pos hovf, codeIsNaN_encNan] at hnan
    cases hnan
  · rfl

/-- QUANT of a finite word that does not encode to a NaN code: RND's magnitude with the word's sign. -/
theorem val32_quantWord {cfg : Config} {w : Word} (hf : wordIsFinite w = true) (hnan : codeIsNaN (enc cfg w) = false) :
    val32 (quantWord cfg w) = some (signFactor (wordSign w) * magCodeValue (rnd (wordMag w)).c) := by
  rw [quantWord_eq, val32_dec cfg hnan, val8_of_not_nan hnan, enc_of_finite_not_nan cfg hf hnan, codeSign_pack,
    codeMag_pack]

theorem abs_signFactor (s : BitVec 1) : |signFactor s| = 1 := by
  simpa using abs_signFactor_mul s zero_le_one

/-- No code's value is nearer to a finite word than RND's magnitude with the word's sign: a value of the other sign is
farther than the same magnitude with the word's. -/
theorem signed_rnd_nearest {w : Word} {x y : ℚ} {b : Code} (hx : val32 w = some x) (hy : val8 b = some y) :
    |signFactor (wordSign w) * magCodeValue (rnd (wordMag w)).c - x| ≤ |y - x| := by
  obtain ⟨-, hxabs, hxval⟩ := val32_eq_some hx
  obtain ⟨hnan, hyabs, -⟩ := val8_eq_some hy
  calc |signFactor (wordSign w) * magCodeValue (rnd (wordMag w)).c - x|
      = |magCodeValue (rnd (wordMag w)).c - magWordValue (wordMag w)| := by
        rw [hxval, ← mul_sub, abs_mul, abs_signFactor, one_mul]
    _ ≤ |magCodeValue (codeMag b) - magWordValue (wordMag w)| := rnd_nearest _ ((codeIsNaN_false_iff b).mp hnan)
    _ = |(|y| - |x|)| := by rw [hyabs, hxabs]
    _ ≤ |y - x| := abs_abs_sub_abs_le y x

theorem codeIsNaN_encMax (s : BitVec 1) : codeIsNaN (encMax s) = false := by
  rw [codeIsNaN_false_iff, encMax, codeMag_pack]
  decide

/-- QUANT of an infinity under `INF_MODE` = SAT is 448 with its sign (R9, R120). -/
theorem val32_quantWord_of_inf {cfg : Config} {w : Word} (hmode : cfg.infMode = .sat) (hinf : wordIsInf w = true) :
    val32 (quantWord cfg w) = some (if wordSign w = 0#1 then 448 else -448) := by
  have henc : enc cfg w = encMax (wordSign w) := by rw [enc_of_inf cfg hinf, encInf, hmode]
  have hnan := codeIsNaN_encMax (wordSign w)
  rw [quantWord_eq, henc, val32_dec cfg hnan, val8_of_not_nan hnan, encMax, codeSign_pack, codeMag_pack, maxMagCode,
    magCodeValue_0x7E]
  rcases bit_cases (wordSign w) with hs | hs <;> simp [hs, signFactor]

/-- QUANT of a word that encodes to a NaN code is a word of `DEC_NAN` (R11, R103). -/
theorem wordIsNaN_quantWord {cfg : Config} {w : Word} (hl : cfg.legal = true) (hnan : codeIsNaN (enc cfg w) = true) :
    wordIsNaN (quantWord cfg w) = true := by
  rw [quantWord_eq, dec_of_nan cfg hnan]
  exact decNan_isNaN hl _

/-- Settles O44: DEC is exact and RND is nearest; the variable between the two requests is fresh. -/
theorem quantNearest : Obligations.QuantNearest := by
  refine ⟨fun vars dst src => ⟨rfl, freshVar_quant_fresh vars dst src⟩, fun cfg w x hx hnan => ?_,
    fun _ _ => val32_quantWord_of_inf, fun _ _ => wordIsNaN_quantWord⟩
  have hval := val32_quantWord (val32_eq_some hx).1 hnan
  refine ⟨_, hval, ⟨enc cfg w, ?_⟩, fun b y hy => signed_rnd_nearest hx hy⟩
  rw [← val32_dec cfg hnan, ← quantWord_eq, hval]

end Sys2Proof.Machine

/-! The family of spec/40_decoder.md: DEC class by class, the word it gives as the only one of its value and sign, and
the cycle of a DECODE request. -/

namespace Sys2Proof.Machine

/-! ### Value and sign (R101, R102, R105) -/

/-- Settles O10, by `val32_dec`. -/
theorem decodeExact : Obligations.DecodeExact := by
  intro cfg b hnan
  have hval := val8_of_not_nan hnan
  exact ⟨⟨_, hval, (val32_dec cfg hnan).trans hval⟩, wordSign_dec cfg hnan⟩

theorem signFactor_injective {s t : BitVec 1} (h : signFactor s = signFactor t) : s = t := by
  rcases bit_cases s with rfl | rfl <;> rcases bit_cases t with rfl | rfl
  · rfl
  · norm_num [signFactor] at h
  · norm_num [signFactor] at h
  · rfl

/-- Words of one value have one magnitude word. -/
theorem wordMag_eq_of_val32 {w v : Word} {x : ℚ} (hw : val32 w = some x) (hv : val32 v = some x) :
    wordMag w = wordMag v := by
  obtain ⟨-, hwabs, -⟩ := val32_eq_some hw
  obtain ⟨-, hvabs, -⟩ := val32_eq_some hv
  have heq : magWordValue (wordMag w) = magWordValue (wordMag v) := hwabs.symm.trans hvabs
  exact BitVec.eq_of_toNat_eq (le_antisymm (magWordValue_le_iff.mp heq.le) (magWordValue_le_iff.mp heq.ge))

/-- A value that is not zero has one sign. -/
theorem wordSign_eq_of_val32 {w v : Word} {x : ℚ} (hw : val32 w = some x) (hv : val32 v = some x) (hx : x ≠ 0) :
    wordSign w = wordSign v := by
  obtain ⟨-, -, hwval⟩ := val32_eq_some hw
  obtain ⟨-, -, hvval⟩ := val32_eq_some hv
  rw [← wordMag_eq_of_val32 hw hv] at hvval
  have hmag : magWordValue (wordMag w) ≠ 0 := right_ne_zero_of_mul (hwval ▸ hx)
  exact signFactor_injective (mul_right_cancel₀ hmag (hwval.symm.trans hvval))

/-- The value of a word determines it, but for the sign of a zero (R32). -/
theorem word_eq_of_val32 {w v : Word} {x : ℚ} (hw : val32 w = some x) (hv : val32 v = some x)
    (h : x ≠ 0 ∨ wordSign w = wordSign v) : w = v :=
  word_eq_of_sign_mag (h.elim (wordSign_eq_of_val32 hw hv) id) (wordMag_eq_of_val32 hw hv)

/-- Settles O11: DEC's word has the value and the sign of the code. -/
theorem decodeUnique : Obligations.DecodeUnique := by
  refine ⟨fun cfg b y hnan hval hsign => ?_, fun w v x => word_eq_of_val32⟩
  have hcode := val8_of_not_nan hnan
  exact word_eq_of_val32 (hval.trans hcode) ((val32_dec cfg hnan).trans hcode)
    (.inr (hsign.trans (wordSign_dec cfg hnan).symm))

/-- Settles O14: both decoded words have the values of their codes. -/
theorem decodeOrder : Obligations.DecodeOrder := by
  intro cfg b1 b2 x1 x2 h1 h2 hlt
  obtain ⟨hnan1, -⟩ := val8_eq_some h1
  obtain ⟨hnan2, -⟩ := val8_eq_some h2
  exact ⟨x1, x2, (val32_dec cfg hnan1).trans h1, (val32_dec cfg hnan2).trans h2, hlt⟩

/-! ### DEC, class by class (R103, R104) -/

theorem codeIsNaN_of_class {b : Code} (h : codeClass b ≠ .nan) : codeIsNaN b = false := by
  rwa [← Bool.not_eq_true, codeIsNaN_iff_fields, ← codeClass_eq_nan_iff]

theorem dec_of_zero (cfg : Config) {b : Code} (h : codeClass b = .zero) :
    dec cfg b = packWord (codeSign b) 0#8 0#23 := by
  rw [dec_of_not_nan cfg (codeIsNaN_of_class (by simp [h])), if_pos ((codeClass_eq_zero_iff b).mp h)]

theorem dec_of_subnormal (cfg : Config) {b : Code} (h : codeClass b = .subnormal) :
    dec cfg b = packWord (codeSign b) (decSubExp (codeMan b)) (decSubFrac (codeMan b)) := by
  obtain ⟨he, hm⟩ := (codeClass_eq_subnormal_iff b).mp h
  rw [dec_of_not_nan cfg (codeIsNaN_of_class (by simp [h])), if_neg (fun hz => hm hz.2), if_pos he]

theorem dec_of_normal (cfg : Config) {b : Code} (h : codeClass b = .normal) :
    dec cfg b = packWord (codeSign b) (BitVec.ofNat 8 ((codeExp b).toNat + 120)) (codeMan b ++ 0#20) := by
  obtain ⟨he, -⟩ := (codeClass_eq_normal_iff b).mp h
  rw [dec_of_not_nan cfg (codeIsNaN_of_class (by simp [h])), if_neg (fun hz => he hz.1), if_neg he]

/-- The leading one of a three-bit fraction is at place 0, 1 or 2. -/
theorem msbIndex_le_two (m : BitVec 3) : msbIndex m.toNat ≤ 2 := by
  unfold msbIndex
  by_cases hm : m.toNat = 0
  · rw [hm]
    decide
  · exact Nat.le_of_lt_succ ((Nat.log2_lt hm).mpr m.isLt)

theorem wordExp_dec_of_subnormal (cfg : Config) {b : Code} (h : codeClass b = .subnormal) :
    118 ≤ (wordExp (dec cfg b)).toNat ∧ (wordExp (dec cfg b)).toNat ≤ 120 := by
  have hp := msbIndex_le_two (codeMan b)
  rw [dec_of_subnormal cfg h, wordExp_pack, decSubExp, BitVec.toNat_ofNat]
  omega

theorem wordExp_dec_of_normal (cfg : Config) {b : Code} (h : codeClass b = .normal) :
    121 ≤ (wordExp (dec cfg b)).toNat ∧ (wordExp (dec cfg b)).toNat ≤ 135 := by
  obtain ⟨he, -⟩ := (codeClass_eq_normal_iff b).mp h
  have hpos := BitVec.le_def.mp ((one_le_codeExp_iff b).mpr he)
  have hexp := (codeExp b).isLt
  rw [BitVec.toNat_ofNat] at hpos
  rw [dec_of_normal cfg h, wordExp_pack, BitVec.toNat_ofNat]
  omega

theorem wordClass_eq_nan_iff (w : Word) : wordClass w = .nan ↔ wordIsNaN w = true := by
  by_cases hE : wordExp w = 0xFF#8
  · by_cases hF : wordFrac w = 0#23 <;> simp [wordClass, wordIsNaN, hE, hF]
  · by_cases hF : wordFrac w = 0#23 <;> simp [wordClass, wordIsNaN, hE, hF, ite_eq_iff]

/-- An exponent field from 1 to 254 is that of a normal word (R32). -/
theorem wordClass_eq_normal_of_exp {w : Word} (h1 : 1 ≤ (wordExp w).toNat) (h254 : (wordExp w).toNat ≤ 254) :
    wordClass w = .normal := by
  have hne255 : wordExp w ≠ 0xFF#8 := fun h => by simp [h] at h254
  have hne0 : wordExp w ≠ 0#8 := fun h => by simp [h] at h1
  rw [wordClass, if_neg hne255, if_neg hne0]

theorem wordClass_dec_of_nan {cfg : Config} {b : Code} (hl : cfg.legal = true) (h : codeIsNaN b = true) :
    wordClass (dec cfg b) = .nan := by
  rw [wordClass_eq_nan_iff, dec_of_nan cfg h]
  exact decNan_isNaN hl (codeSign b)

theorem wordClass_dec_of_zero (cfg : Config) {b : Code} (h : codeClass b = .zero) : wordClass (dec cfg b) = .zero := by
  rw [wordClass_eq_zero_iff, dec_of_zero cfg h, wordExp_pack, wordFrac_pack]
  exact ⟨rfl, rfl⟩

/-- The class of a decoded word: NaN, zero and normal keep theirs, and a subnormal code becomes normal (R104). -/
theorem wordClass_dec {cfg : Config} (hl : cfg.legal = true) (b : Code) :
    wordClass (dec cfg b) =
      match codeClass b with
      | .nan => .nan
      | .zero => .zero
      | .subnormal | .normal => .normal := by
  cases hb : codeClass b with
  | nan => exact wordClass_dec_of_nan hl ((codeIsNaN_iff_fields b).mpr ((codeClass_eq_nan_iff b).mp hb))
  | zero => exact wordClass_dec_of_zero cfg hb
  | subnormal =>
    obtain ⟨hlow, hhigh⟩ := wordExp_dec_of_subnormal cfg hb
    exact wordClass_eq_normal_of_exp (by omega) (by omega)
  | normal =>
    obtain ⟨hlow, hhigh⟩ := wordExp_dec_of_normal cfg hb
    exact wordClass_eq_normal_of_exp (by omega) (by omega)

theorem wordIsFinite_of_nan {w : Word} (h : wordClass w = .nan) : wordIsFinite w = false := by
  rw [wordClass_eq_nan_iff, wordIsNaN, Bool.and_eq_true, beq_iff_eq] at h
  simp [wordIsFinite, h.1]

/-- Settles O13: the exponent fields class by class, and the class of the result. -/
theorem decodeExponentRange : Obligations.DecodeExponentRange := by
  intro cfg b hl
  refine ⟨wordExp_dec_of_subnormal cfg, wordExp_dec_of_normal cfg, wordClass_dec_of_zero cfg, ?_⟩
  have hclass := wordClass_dec hl b
  cases hb : codeClass b with
  | nan =>
    rw [hb] at hclass
    simp [hclass, wordIsFinite_of_nan hclass]
  | zero => simp [hclass, hb]
  | subnormal => simp [hclass, hb]
  | normal => simp [hclass, hb]

theorem codeSign_eq_zero_iff (b : Code) : codeSign b = 0#1 ↔ b.getLsbD 7 = false := by
  rw [← BitVec.toNat_inj, codeSign_toNat, BitVec.getLsbD, Nat.testBit_eq_decide_div_mod_eq, decide_eq_false_iff_not,
    BitVec.toNat_ofNat]
  omega

/-- Settles O12: DEC takes its NaN branch, and a legal `DEC_NAN` is a NaN. -/
theorem decodeNaN : Obligations.DecodeNaN := by
  intro cfg b hl hmag
  have hnan : codeIsNaN b = true := by rw [codeIsNaN, hmag]; rfl
  refine ⟨?_, wordClass_dec_of_nan hl hnan⟩
  rw [dec_of_nan cfg hnan, decNan]
  exact if_congr (codeSign_eq_zero_iff b) rfl rfl

/-! ### What the results depend on (R106, R127) -/

/-- DEC reads no parameter but `DEC_NAN`. -/
theorem dec_congr {c d : Config} (hpos : c.decNanPos = d.decNanPos) (hneg : c.decNanNeg = d.decNanNeg) (b : Code) :
    dec c b = dec d b := by
  cases hb : codeIsNaN b with
  | false => exact dec_config_irrelevant c d hb
  | true => rw [dec_of_nan c hb, dec_of_nan d hb, decNan, decNan, hpos, hneg]

theorem encNan_congr {c d : Config} (hsign : c.encNanSign = d.encNanSign) (s : BitVec 1) : encNan c s = encNan d s := by
  rw [encNan_eq, encNan_eq, hsign]

/-- ENC reads no parameter but `OVF_MODE`, `INF_MODE` and `ENC_NAN_SIGN`. -/
theorem enc_congr {c d : Config} (hovf : c.ovfMode = d.ovfMode) (hinf : c.infMode = d.infMode)
    (hsign : c.encNanSign = d.encNanSign) (w : Word) : enc c w = enc d w := by
  rcases word_trichotomy w with hw | hw | hw
  · rw [enc_of_nan c hw, enc_of_nan d hw, encNan_congr hsign]
  · rw [enc_of_inf c hw, enc_of_inf d hw, encInf, encInf, hinf, encNan_congr hsign]
  · rw [enc_of_finite c hw, enc_of_finite d hw, encFinite_eq, encFinite_eq, hovf, encNan_congr hsign]

/-- Settles O28: `core(op, a)` is DEC of the low byte or ENC of the operand. -/
theorem resultsReadOnlyTheirParameters : Obligations.ResultsReadOnlyTheirParameters := by
  refine ⟨fun c d a a' hbyte hpos hneg => ?_, fun c d a hovf hinf hsign => ?_⟩
  · rw [coreResult_decode, coreResult_decode, decodeOperand, decodeOperand, hbyte, dec_congr hpos hneg]
  · rw [coreResult_encode, coreResult_encode, enc_congr hovf hinf hsign]

/-! ### The cycle of a DECODE request (R25, R69, R100) -/

/-- With registers the response port shows a value exactly with a valid stage (R25, R206). -/
theorem portOut_of_registered {cfg : Config} (h : cfg.latency ≠ 0) (st : Stage) :
    portOut cfg st = ⟨st.valid, if st.valid = true then some st.data else none⟩ := by
  simp [portOut, h]

/-- With `LATENCY` = 0 a shift leaves no stage, and the response port shows what enters (R69). -/
theorem shiftEdge_of_combinational {s : State} (h0 : s.cfg.latency = 0) (hlen : PipeLength s) (st : Stage) :
    (shiftEdge s st).pipe = [] ∧ (shiftEdge s st).rsp = ⟨st.valid, some st.data⟩ := by
  have hpipe : s.pipe = [] := List.length_eq_zero_iff.mp (hlen.trans h0)
  rw [shiftEdge_pipe, shiftEdge_rsp, lastStage, hpipe, List.getLastD_nil, portOut_of_combinational h0]
  exact ⟨rfl, rfl⟩

/-- With registers a shift takes the last stage out to the response port (R25). -/
theorem shiftEdge_of_last {s : State} {rest : List Stage} {last : Stage} (hlen : PipeLength s)
    (h : s.pipe = rest ++ [last]) (st : Stage) :
    (shiftEdge s st).pipe = st :: rest ∧
      (shiftEdge s st).rsp = ⟨last.valid, if last.valid = true then some last.data else none⟩ := by
  have hlat : s.cfg.latency ≠ 0 := by rw [← hlen, h]; simp
  rw [shiftEdge_pipe, shiftEdge_rsp, lastStage_append h, portOut_of_registered hlat, h, ← List.cons_append,
    List.dropLast_concat]
  exact ⟨rfl, rfl⟩

/-- The meaning of DECODE: a request's cycle with DEC of the low byte (R66, R100). -/
theorem exec_decode (a : Word) (s : State) :
    exec (.decode a) s = present (dec s.cfg (a.extractLsb' 0 8)) s := rfl

/-- Settles O30: the request's cycle is one shift of the pipeline. -/
theorem decodeCompletes : Obligations.DecodeCompletes := by
  intro a s hl hlen
  exact ⟨_, (exec_decode a s).trans (present_of_legal _ hl), rfl, rfl, rfl, rfl,
    fun h0 => shiftEdge_of_combinational h0 hlen _, fun _ _ h => shiftEdge_of_last hlen h _⟩

end Sys2Proof.Machine

/-! The family of spec/41_encoder.md: where RND changes from one code to the next, what ENC can answer, and from these
ENCODE by value, its signs, its thresholds, its order and its way back from DECODE. -/

namespace Sys2Proof.Machine

/-! ### Where RND changes from one code to the next (R140, R141) -/

/-- RND's circuit passes code `n` above the midpoint of `n` and `n + 1`, and at it when `n` is odd. -/
theorem lt_rndCode_iff {E F : Nat} (hF : F < 2 ^ 23) (n : Nat) :
    n < rndCode E F ↔ magCodeUnits n + magCodeUnits (n + 1) < 2 * magWordUnits E F ∨
      (magCodeUnits n + magCodeUnits (n + 1) = 2 * magWordUnits E F ∧ n % 2 = 1) := by
  obtain ⟨q, r, half, h, hpos, hbelow, hvalue, hgap, hcode⟩ := rnd_bracket (E := E) hF
  have hsucc : magCodeUnits n < magCodeUnits (n + 1) := magCodeUnits_lt_succ n
  have hin : r * h < 2 * half * h := Nat.mul_lt_mul_of_pos_right hbelow hpos
  rcases lt_trichotomy n q with hn | rfl | hn
  · have hle : magCodeUnits (n + 1) ≤ magCodeUnits q := magCodeUnits_strictMono.monotone hn
    omega
  · have hlt : half * h < r * h ↔ half < r := Nat.mul_lt_mul_right hpos
    have heq : half * h = r * h ↔ half = r := Nat.mul_left_inj hpos.ne'
    rw [Nat.mul_assoc] at hgap
    rw [hcode, hvalue, hgap]
    split <;> omega
  · have hle : magCodeUnits (q + 1) ≤ magCodeUnits n := magCodeUnits_strictMono.monotone hn
    rw [hcode]
    split <;> omega

/-- A larger magnitude has no smaller code. -/
theorem rndCode_mono {E F E' F' : Nat} (hF : F < 2 ^ 23) (hF' : F' < 2 ^ 23)
    (h : magWordUnits E F ≤ magWordUnits E' F') : rndCode E F ≤ rndCode E' F' := by
  by_contra hlt
  have hpass := (lt_rndCode_iff hF (rndCode E' F')).mp (not_le.mp hlt)
  have hstay := (lt_rndCode_iff (E := E') hF' (rndCode E' F')).not.mp (lt_irrefl _)
  omega

/-- A code at most as far from the magnitude as the circuit's, and another one, shows a tie: the circuit's is even. -/
theorem rndCode_even_of_tie {E F d : Nat} (hF : F < 2 ^ 23) (hne : d ≠ rndCode E F)
    (hdist : ((magCodeUnits d : ℤ) - magWordUnits E F).natAbs ≤
      ((magCodeUnits (rndCode E F) : ℤ) - magWordUnits E F).natAbs) : rndCode E F % 2 = 0 := by
  rcases lt_or_gt_of_ne hne with hd | hd
  · obtain ⟨p, hp⟩ : ∃ p, rndCode E F = p + 1 := ⟨rndCode E F - 1, by omega⟩
    have hpass := (lt_rndCode_iff (E := E) hF p).mp (by omega)
    rw [hp] at hd hdist ⊢
    have hle : magCodeUnits d ≤ magCodeUnits p := magCodeUnits_strictMono.monotone (Nat.le_of_lt_succ hd)
    have hsucc : magCodeUnits p < magCodeUnits (p + 1) := magCodeUnits_lt_succ p
    omega
  · have hstay := (lt_rndCode_iff (E := E) hF (rndCode E F)).not.mp (lt_irrefl _)
    have hle : magCodeUnits (rndCode E F + 1) ≤ magCodeUnits d := magCodeUnits_strictMono.monotone hd
    have hsucc : magCodeUnits (rndCode E F) < magCodeUnits (rndCode E F + 1) := magCodeUnits_lt_succ _
    omega

/-- RND raises `ovf` exactly where its circuit's code is past 0x7E: exponent fields from 136 on are past it too. -/
theorem rnd_ovf_iff_code (m : MagWord) :
    (rnd m).ovf = true ↔ 126 < rndCode (magExp m).toNat (magFrac m).toNat := by
  by_cases hE : 136 ≤ (magExp m).toNat
  · have hcode := (rnd_bracket_normal (E := (magExp m).toNat) (by omega) (magFrac m).isLt).code
    rw [rnd_of_large hE, hcode]
    exact iff_of_true rfl (by omega)
  · rw [rnd_of_small (by omega)]
    split
    · next hc => exact iff_of_true rfl hc
    · next hc => exact iff_of_false Bool.false_ne_true hc

/-- RND's code is its circuit's, held at 0x7E. -/
theorem rnd_c_toNat (m : MagWord) : (rnd m).c.toNat = min (rndCode (magExp m).toNat (magFrac m).toNat) 126 := by
  rcases rnd_cases m with ⟨hovf, hc, -⟩ | ⟨-, hc, hle⟩
  · rw [hc, min_eq_right ((rnd_ovf_iff_code m).mp hovf).le]
    rfl
  · rw [← hc, min_eq_left hle]

theorem rnd_c_le (m : MagWord) : (rnd m).c.toNat ≤ 126 := by
  rw [rnd_c_toNat]
  exact min_le_right _ _

/-- RND keeps the order of magnitudes. -/
theorem rnd_c_mono {m n : MagWord} (h : magWordValue m ≤ magWordValue n) :
    magCodeValue (rnd m).c ≤ magCodeValue (rnd n).c := by
  rw [magWordValue_eq_units, magWordValue_eq_units, div_le_div_iff_of_pos_right (by positivity), Nat.cast_le] at h
  rw [magCodeValue_le_iff, rnd_c_toNat, rnd_c_toNat]
  exact min_le_min_right _ (rndCode_mono (magFrac m).isLt (magFrac n).isLt h)

/-- Where another code is equally near, RND's is even; 0x7E, its overflow answer, is even too (R141). -/
theorem rnd_c_even_of_tie {m : MagWord} {d : MagCode} (hne : d ≠ (rnd m).c)
    (hdist : |magCodeValue d - magWordValue m| = |magCodeValue (rnd m).c - magWordValue m|) :
    (rnd m).c.getLsbD 0 = false := by
  rcases rnd_cases m with ⟨-, hc, -⟩ | ⟨-, hc, -⟩
  · rw [hc]
    rfl
  · have hunits := dist_le_iff_units.mp hdist.le
    rw [ne_eq, ← BitVec.toNat_inj, hc] at hne
    rw [hc] at hunits
    rw [getLsbD_zero_eq, hc, rndCode_even_of_tie (magFrac m).isLt hne hunits]
    rfl

/-! ### The thresholds 448 and 464 (R140, R142) -/

/-- `big` is above 448. -/
theorem rnd_big_iff_value (m : MagWord) : (rnd m).big = true ↔ 448 < magWordValue m := by
  rw [rnd_big_iff, maxMagCode, magCodeValue_0x7E]

/-- `ovf` is above 464, the midpoint of 0x7E and 0x7F: 0x7E is even, so it keeps the midpoint. -/
theorem rnd_ovf_iff_value (m : MagWord) : (rnd m).ovf = true ↔ 464 < magWordValue m := by
  have hmid : (464 : ℚ) = ((magCodeUnits 126 + magCodeUnits 127 : ℕ) : ℚ) / 2 / 2 ^ 149 := by
    norm_num [magCodeUnits]
  rw [rnd_ovf_iff_code, lt_rndCode_iff (magFrac m).isLt, or_iff_left (by omega), magWordValue_eq_units, hmid,
    div_lt_div_iff_of_pos_right (by positivity), div_lt_iff₀' (by norm_num)]
  exact_mod_cast Iff.rfl

/-- Every magnitude above 448 rounds to 0x7E, with `ovf` or without. -/
theorem rnd_c_of_above_max {m : MagWord} (h : 448 < magWordValue m) : (rnd m).c = maxMagCode := by
  have hle : magCodeValue (rnd m).c ≤ magCodeValue maxMagCode := magCodeValue_le_iff.mpr (rnd_c_le m)
  have hnear := rnd_nearest m (d := maxMagCode) le_rfl
  rw [maxMagCode, magCodeValue_0x7E] at hle hnear
  rw [abs_of_nonpos (by linarith), abs_of_nonpos (by linarith)] at hnear
  have hge : magCodeValue maxMagCode ≤ magCodeValue (rnd m).c := by
    rw [maxMagCode, magCodeValue_0x7E]
    linarith
  exact BitVec.eq_of_toNat_eq (le_antisymm (rnd_c_le m) (magCodeValue_le_iff.mp hge))

/-- Every magnitude below 2^-10, the midpoint of codes 0 and 1, rounds to 0. -/
theorem rnd_c_of_below_min {m : MagWord} (h : magWordValue m < 1 / 2 ^ 10) : (rnd m).c = 0#7 := by
  have hnear := rnd_nearest m (d := 0#7) (by decide)
  rw [magCodeValue_eq_zero_of_toNat (c := 0#7) rfl, zero_sub, abs_neg, abs_of_nonneg (magWordValue_nonneg m)] at hnear
  have hlt : magCodeValue (rnd m).c < magCodeValue 0x01#7 := by
    rw [magCodeValue_0x01]
    linarith [le_abs_self (magCodeValue (rnd m).c - magWordValue m)]
  exact BitVec.eq_of_toNat_eq (Nat.lt_one_iff.mp (magCodeValue_lt_iff.mp hlt))

/-! ### What ENC can answer (R120 to R122) -/

/-- When the overflow policy turns a magnitude into the NaN code (R8, R121). -/
theorem overflowsToNaN_rnd_iff (mode : OvfMode) (m : MagWord) :
    overflowsToNaN mode (rnd m) = true ↔
      (mode = .nan ∧ 464 < magWordValue m) ∨ (mode = .nanStrict ∧ 448 < magWordValue m) := by
  cases mode with
  | nan => simp [overflowsToNaN, rnd_ovf_iff_value]
  | sat => simp [overflowsToNaN]
  | nanStrict => simp [overflowsToNaN, rnd_big_iff_value]

/-- A finite word the overflow policy makes a NaN code (R121). -/
theorem enc_of_overflow (cfg : Config) {w : Word} (hf : wordIsFinite w = true)
    (h : overflowsToNaN cfg.ovfMode (rnd (wordMag w)) = true) : enc cfg w = encNan cfg (wordSign w) := by
  rw [enc_of_finite cfg hf, encFinite_eq, if_pos h]

/-- A finite word the overflow policy leaves to RND (R121). -/
theorem enc_of_no_overflow (cfg : Config) {w : Word} (hf : wordIsFinite w = true)
    (h : ¬ overflowsToNaN cfg.ovfMode (rnd (wordMag w)) = true) :
    enc cfg w = packCode (wordSign w) (rnd (wordMag w)).c := by
  rw [enc_of_finite cfg hf, encFinite_eq, if_neg h]

/-- Whatever the word, ENC answers `NAN8`, or the word's sign with a finite magnitude code. -/
theorem enc_cases (cfg : Config) (w : Word) :
    enc cfg w = encNan cfg (wordSign w) ∨ ∃ c : MagCode, c.toNat ≤ 126 ∧ enc cfg w = packCode (wordSign w) c := by
  rcases word_trichotomy w with hw | hw | hw
  · exact .inl (enc_of_nan cfg hw)
  · rw [enc_of_inf cfg hw, encInf]
    cases cfg.infMode with
    | nan => exact .inl rfl
    | sat => exact .inr ⟨maxMagCode, le_rfl, rfl⟩
  · by_cases hovf : overflowsToNaN cfg.ovfMode (rnd (wordMag w)) = true
    · exact .inl (enc_of_overflow cfg hw hovf)
    · exact .inr ⟨_, rnd_c_le _, enc_of_no_overflow cfg hw hovf⟩

/-- Below 2^-10 a finite word gives the zero of its sign under every configuration (R122). -/
theorem enc_of_below_min (cfg : Config) {w : Word} (hf : wordIsFinite w = true)
    (h : magWordValue (wordMag w) < 1 / 2 ^ 10) : enc cfg w = packCode (wordSign w) 0#7 := by
  have hno : ¬ overflowsToNaN cfg.ovfMode (rnd (wordMag w)) = true := by
    rw [overflowsToNaN_rnd_iff]
    rintro (⟨-, hv⟩ | ⟨-, hv⟩) <;> linarith
  rw [enc_of_no_overflow cfg hf hno, rnd_c_of_below_min h]

/-- Settles O20: the policy's branch of ENC, then RND as nearest with ties to even. -/
theorem encodeByValue : Obligations.EncodeByValue := by
  intro cfg w v hv
  obtain ⟨hf, habs, -⟩ := val32_eq_some hv
  rw [habs]
  refine ⟨fun hovf => ?_, fun ⟨hsat, habove⟩ => ?_, fun hno _ => ?_⟩
  · rw [enc_of_overflow cfg hf ((overflowsToNaN_rnd_iff _ _).mpr hovf), encNan_eq]
  · have hno : ¬ overflowsToNaN cfg.ovfMode (rnd (wordMag w)) = true := by simp [hsat, overflowsToNaN]
    rw [enc_of_no_overflow cfg hf hno, rnd_c_of_above_max habove, maxMagCode]
  · rw [← overflowsToNaN_rnd_iff] at hno
    exact ⟨_, enc_of_no_overflow cfg hf hno, BitVec.le_def.mpr (rnd_c_le _),
      fun d hd => ⟨rnd_nearest _ (BitVec.le_def.mp hd), rnd_c_even_of_tie⟩⟩

/-! ### Signs and the smallest inputs (R122, R123) -/

theorem codeIsNaN_pack {s : BitVec 1} {c : MagCode} (h : c.toNat ≤ 126) : codeIsNaN (packCode s c) = false := by
  rwa [codeIsNaN_false_iff, codeMag_pack]

theorem signFactor_zero : signFactor 0#1 = 1 := rfl

theorem signFactor_one : signFactor 1#1 = -1 := rfl

/-- A word of a negative value has sign bit 1. -/
theorem wordSign_of_neg {w : Word} {x : ℚ} (hx : val32 w = some x) (h : x < 0) : wordSign w = 1#1 := by
  obtain ⟨-, -, hval⟩ := val32_eq_some hx
  have hmag := magWordValue_nonneg (wordMag w)
  refine (bit_cases (wordSign w)).resolve_left fun hs => ?_
  rw [hs, signFactor_zero, one_mul] at hval
  linarith

/-- Settles O22, by the two kinds of answer ENC has. -/
theorem encodeSign : Obligations.EncodeSign := by
  refine fun cfg w => ⟨fun hnan => ?_, fun hnan => ?_, fun x hx hneg hsmall => ?_⟩
  · rcases enc_cases cfg w with henc | ⟨c, -, henc⟩
    · rw [henc, codeIsNaN_encNan] at hnan
      cases hnan
    · rw [henc, codeSign_pack]
  · rcases enc_cases cfg w with henc | ⟨c, hc, henc⟩
    · rw [henc, (encNan_fields cfg _).2]
    · rw [henc, codeIsNaN_pack hc] at hnan
      cases hnan
  · obtain ⟨hf, habs, -⟩ := val32_eq_some hx
    rw [habs] at hsmall
    rw [enc_of_below_min cfg hf hsmall, wordSign_of_neg hx hneg]
    rfl

theorem wordExp_of_subnormal {w : Word} (h : wordClass w = .subnormal) : wordExp w = 0#8 := by
  by_contra hE
  by_cases hE255 : wordExp w = 0xFF#8
  · by_cases hF : wordFrac w = 0#23 <;> simp [wordClass, hE255, hF] at h
  · simp [wordClass, hE, hE255] at h

/-- With exponent field 0 a magnitude is below 2^-126 (R32). -/
theorem magWordValue_of_exp_zero {m : MagWord} (h : magExp m = 0#8) : magWordValue m < 1 / 2 ^ 126 := by
  have hF : ((magFrac m).toNat : ℚ) < 2 ^ 23 := by exact_mod_cast (magFrac m).isLt
  rw [magWordValue_eq_units, h, magWordUnits, BitVec.toNat_ofNat, Nat.zero_mod, if_pos rfl,
    div_lt_iff₀ (by positivity)]
  linarith

theorem wordClass_pack_zero (s : BitVec 1) : wordClass (packWord s 0#8 0#23) = .zero := by
  rw [wordClass_eq_zero_iff, wordExp_pack, wordFrac_pack]
  exact ⟨rfl, rfl⟩

/-- Settles O23: a subnormal is far below 2^-10. -/
theorem encodeSubnormalInput : Obligations.EncodeSubnormalInput := by
  intro cfg w hclass
  have hE := wordExp_of_subnormal hclass
  have hf : wordIsFinite w = true := by simp [wordIsFinite, hE]
  have hsmall : magWordValue (wordMag w) < 1 / 2 ^ 126 := magWordValue_of_exp_zero (by rw [magExp_wordMag, hE])
  have henc := enc_of_below_min cfg hf (hsmall.trans (by norm_num))
  refine ⟨⟨_, val32_of_finite hf, ?_⟩, henc, ?_⟩
  · rwa [abs_signFactor_mul _ (magWordValue_nonneg _)]
  · rw [henc, enc_of_zero cfg (wordClass_pack_zero _), wordSign_pack]

/-! ### The thresholds as word comparisons (R124) -/

/-- A nonnegative constant with a word is compared with magnitudes by its magnitude word. -/
theorem const_le_abs_iff {w k : Word} {v q : ℚ} (hw : val32 w = some v) (hk : val32 k = some q) (hq : 0 ≤ q) :
    q ≤ |v| ↔ wordMag k ≤ wordMag w := by
  rw [wordMag_le_iff_abs hk hw, abs_of_nonneg hq]

theorem const_lt_abs_iff {w k : Word} {v q : ℚ} (hw : val32 w = some v) (hk : val32 k = some q) (hq : 0 ≤ q) :
    q < |v| ↔ wordMag k < wordMag w := by
  rw [← not_le, ← BitVec.not_le, wordMag_le_iff_abs hw hk, abs_of_nonneg hq]

/-- No finite word has a magnitude word above that of the largest one (R32). -/
theorem wordMag_le_largest {w : Word} (h : wordIsFinite w = true) : wordMag w ≤ 0x7F7FFFFF#31 := by
  have hE := (wordIsFinite_iff w).mp h
  have hF := (wordFrac w).isLt
  rw [BitVec.le_def, mag_toNat_fields, magExp_wordMag, magFrac_wordMag, BitVec.toNat_ofNat]
  omega

/-- Settles O24: the words of 448, 464 and 480 are those of R34, and 480 is above both thresholds of R121. -/
theorem overflowThresholds : Obligations.OverflowThresholds := by
  obtain ⟨-, -, h448, h464, h480, -⟩ := magnitudeWordOrder
  refine ⟨fun w v hv => ⟨const_lt_abs_iff hv h448 (by norm_num), const_lt_abs_iff hv h464 (by norm_num),
    const_le_abs_iff hv h480 (by norm_num)⟩, fun cfg w hf hle => ?_, by decide, by decide,
    fun w hf => wordMag_le_largest hf⟩
  have hv := val32_of_finite hf
  have habove := (const_le_abs_iff hv h480 (by norm_num)).mpr hle
  obtain ⟨hnan, hsat, -⟩ := encodeByValue cfg w _ hv
  refine ⟨fun hmode => hsat ⟨hmode, by linarith⟩, fun hmode => hnan ?_⟩
  cases hm : cfg.ovfMode with
  | nan => exact .inl ⟨rfl, by linarith⟩
  | sat => exact absurd hm hmode
  | nanStrict => exact .inr ⟨rfl, by linarith⟩

/-! ### Back from DECODE (R125) -/

/-- ENC of a decoded NaN code is `NAN8` with the sign of the word `DEC_NAN` gave (R10, R11). -/
theorem enc_dec_of_nan {cfg : Config} (hl : cfg.legal = true) {b : Code} (h : codeIsNaN b = true) :
    enc cfg (dec cfg b) = encNan cfg (wordSign (decNan cfg (codeSign b))) := by
  rw [dec_of_nan cfg h, enc_of_nan cfg (decNan_isNaN hl _)]

/-- A `DEC_NAN` whose two words have the signs 0 and 1 keeps the sign of the code. -/
theorem wordSign_decNan {cfg : Config} (hpos : wordSign cfg.decNanPos = 0#1) (hneg : wordSign cfg.decNanNeg = 1#1)
    (s : BitVec 1) : wordSign (decNan cfg s) = s := by
  rcases bit_cases s with rfl | rfl
  · exact hpos
  · exact hneg

/-- Settles O25: `enc_dec` off the NaN codes, and `NAN8` with the sign `ENC_NAN_SIGN` asks for on them. -/
theorem roundTrip : Obligations.RoundTrip := by
  refine ⟨fun cfg b hl => ?_, by decide, by decide⟩
  have hfinite : codeMag b ≠ 0x7F#7 → codeIsNaN b = false := beq_false_of_ne
  have hnan : codeMag b = 0x7F#7 → codeIsNaN b = true := beq_iff_eq.mpr
  obtain ⟨-, hmax, -⟩ := formatConstants
  refine ⟨fun hm => enc_dec cfg (hfinite hm), fun hm => ⟨_, val8_of_not_nan (hfinite hm), ?_⟩, fun hm => ?_,
    fun hm hcopy hpos hneg => ?_, fun hm hpositive => ?_⟩
  · exact hmax b _ (val8_of_not_nan (hfinite hm))
  · rw [enc_dec_of_nan hl (hnan hm), codeIsNaN_encNan]
  · rw [enc_dec_of_nan hl (hnan hm), wordSign_decNan hpos hneg, encNan_eq, if_pos hcopy, ← hm, packCode_fields]
  · rw [enc_dec_of_nan hl (hnan hm), encNan_eq, if_neg (by simp [hpositive])]

/-! ### Order (R126) -/

/-- The value ENC gives a finite word that does not encode to a NaN code is RND's magnitude with the word's sign. -/
theorem val8_enc {cfg : Config} {w : Word} {x y : ℚ} (hx : val32 w = some x) (hy : val8 (enc cfg w) = some y) :
    y = signFactor (wordSign w) * magCodeValue (rnd (wordMag w)).c := by
  obtain ⟨hf, -, -⟩ := val32_eq_some hx
  obtain ⟨hnan, -, hval⟩ := val8_eq_some hy
  rw [hval, enc_of_finite_not_nan cfg hf hnan, codeSign_pack, codeMag_pack]

/-- RND of magnitude 0 has value 0. -/
theorem magCodeValue_rnd_of_zero {m : MagWord} (h : magWordValue m = 0) : magCodeValue (rnd m).c = 0 := by
  rw [rnd_c_of_below_min (by rw [h]; norm_num), magCodeValue_eq_zero_of_toNat rfl]

/-- Rounding magnitudes and keeping signs keeps the order; a positive value below a negative one is two zeros. -/
theorem signed_rnd_mono {s t : BitVec 1} {m n : MagWord}
    (h : signFactor s * magWordValue m ≤ signFactor t * magWordValue n) :
    signFactor s * magCodeValue (rnd m).c ≤ signFactor t * magCodeValue (rnd n).c := by
  have hm := magWordValue_nonneg m
  have hn := magWordValue_nonneg n
  have hcm := magCodeValue_nonneg (rnd m).c
  have hcn := magCodeValue_nonneg (rnd n).c
  rcases bit_cases s with rfl | rfl <;> rcases bit_cases t with rfl | rfl <;>
    simp only [signFactor_zero, signFactor_one, one_mul, neg_one_mul, neg_le_neg_iff] at h ⊢
  · exact rnd_c_mono h
  · rw [magCodeValue_rnd_of_zero (m := m) (by linarith), magCodeValue_rnd_of_zero (m := n) (by linarith), neg_zero]
  · linarith
  · exact rnd_c_mono h

/-- Settles O26: signed rounding keeps the order, and the least subnormal meets zero in one code. -/
theorem encodeOrder : Obligations.EncodeOrder := by
  refine fun cfg => ⟨fun w1 w2 x1 x2 y1 y2 hx1 hx2 hle hy1 hy2 => ?_, ?_⟩
  · obtain ⟨-, -, hval1⟩ := val32_eq_some hx1
    obtain ⟨-, -, hval2⟩ := val32_eq_some hx2
    rw [hval1, hval2] at hle
    rw [val8_enc hx1 hy1, val8_enc hx2 hy2]
    exact signed_rnd_mono hle
  · obtain ⟨-, -, hsame⟩ := encodeSubnormalInput cfg 1#32 (by decide)
    exact ⟨_, _, by decide, hsame, rfl, rfl⟩

/-! ### The cycle of an ENCODE request (R25, R69, R120) -/

/-- The meaning of ENCODE: a request's cycle with the zero-extended code of ENC (R68, R120). -/
theorem exec_encode (w : Word) (s : State) :
    exec (.encode w) s = present ((enc s.cfg w).setWidth 32) s := rfl

/-- Settles O31: the request's cycle is one shift of the pipeline. -/
theorem encodeCompletes : Obligations.EncodeCompletes := by
  intro w s hl hlen
  exact ⟨_, (exec_encode w s).trans (present_of_legal _ hl), rfl, rfl, rfl, rfl,
    fun h0 => shiftEdge_of_combinational h0 hlen _, fun _ _ h => shiftEdge_of_last hlen h _⟩

end Sys2Proof.Machine

/-! The family of spec/42_rounding_unit.md: RND by value, its two indications, its ties, the widths of its datapath, and
the one sticky bit it makes of the low fraction bits. -/

namespace Sys2Proof.Machine

/-! ### RND by value (R141) -/

/-- Where two codes that are not neighbours are equally near to `x`, a code between them is nearer. -/
theorem exists_nearer_between {c d : MagCode} {x : ℚ} (hcd : c.toNat + 1 < d.toNat)
    (hdist : |magCodeValue c - x| = |magCodeValue d - x|) :
    ∃ e : MagCode, e.toNat < d.toNat ∧ |magCodeValue e - x| < |magCodeValue d - x| := by
  obtain ⟨e, he⟩ : ∃ e : MagCode, e.toNat = c.toNat + 1 :=
    ⟨BitVec.ofNat 7 (c.toNat + 1), by have := d.isLt; rw [BitVec.toNat_ofNat]; omega⟩
  have hce : magCodeValue c < magCodeValue e := magCodeValue_lt_iff.mpr (by omega)
  have hed : magCodeValue e < magCodeValue d := magCodeValue_lt_iff.mpr (by omega)
  have hmid : magCodeValue c - x = -(magCodeValue d - x) :=
    (abs_eq_abs.mp hdist).resolve_left (by linarith)
  refine ⟨e, by omega, ?_⟩
  rw [abs_of_nonneg (a := magCodeValue d - x) (by linarith), abs_lt]
  constructor <;> linarith

/-- Another code that is as near as RND's is a neighbour of it (R141). -/
theorem rnd_c_adjacent_of_tie {m : MagWord} {d : MagCode} (hd : d.toNat ≤ 126) (hne : d ≠ (rnd m).c)
    (hdist : |magCodeValue d - magWordValue m| = |magCodeValue (rnd m).c - magWordValue m|) :
    d.toNat = (rnd m).c.toNat + 1 ∨ (rnd m).c.toNat = d.toNat + 1 := by
  have hc := rnd_c_le m
  rw [ne_eq, ← BitVec.toNat_inj] at hne
  by_contra hfar
  rcases (by omega : d.toNat + 1 < (rnd m).c.toNat ∨ (rnd m).c.toNat + 1 < d.toNat) with hlt | hlt
  · obtain ⟨e, he, hnearer⟩ := exists_nearer_between hlt hdist
    exact absurd (rnd_nearest m (d := e) (by omega)) (by linarith)
  · obtain ⟨e, he, hnearer⟩ := exists_nearer_between hlt hdist.symm
    exact absurd (rnd_nearest m (d := e) (by omega)) (by linarith)

/-- `ovf` implies `big`: what is above 464 is above 448 (R142). -/
theorem rnd_big_of_ovf {m : MagWord} (h : (rnd m).ovf = true) : (rnd m).big = true := by
  rw [rnd_ovf_iff_value] at h
  rw [rnd_big_iff_value]
  linarith

/-- Settles O15: the thresholds of RND, then its code as nearest, even at a tie, and next to the other code of a tie. -/
theorem roundByValue : Obligations.RoundByValue := by
  intro m _
  exact ⟨rnd_ovf_iff_value m, rnd_big_iff_value m,
    fun hovf => rnd_c_of_above_max ((rnd_big_iff_value m).mp (rnd_big_of_ovf hovf)),
    fun _ => ⟨BitVec.le_def.mpr (rnd_c_le m), fun d hd => ⟨rnd_nearest m (BitVec.le_def.mp hd),
      fun hne hdist => ⟨rnd_c_even_of_tie hne hdist, rnd_c_adjacent_of_tie (BitVec.le_def.mp hd) hne hdist⟩⟩⟩⟩

/-! ### The indications as word comparisons (R142) -/

theorem rnd_ovf_eq_false_iff_value (m : MagWord) : (rnd m).ovf = false ↔ magWordValue m ≤ 464 := by
  rw [← Bool.not_eq_true, rnd_ovf_iff_value, not_lt]

theorem magWordValue_0x43E80000 : magWordValue 0x43E80000#31 = 464 := by
  have hE : (magExp 0x43E80000#31).toNat = 135 := rfl
  have hF : (magFrac 0x43E80000#31).toNat = 0x680000 := rfl
  norm_num [magWordValue, hE, hF]

/-- Settles O16: both indications are comparisons of values, and values are compared as words are. -/
theorem roundFlagsAsWords : Obligations.RoundFlagsAsWords := by
  intro m _
  refine ⟨rnd_big_of_ovf, ?_, fun hbig _ => rnd_c_of_above_max ((rnd_big_iff_value m).mp hbig), ?_, ?_⟩
  · rw [rnd_big_iff_value, rnd_ovf_eq_false_iff_value]
  · rw [rnd_ovf_iff_value, ← magWordValue_0x43E80000, magWordValue_lt_iff, BitVec.lt_def]
  · rw [rnd_big, rndBig, decide_eq_true_iff]

/-! ### Ties (R143) -/

/-- A midpoint of two neighbouring codes goes to the even one. -/
theorem rnd_c_of_midpoint {m : MagWord} {c d : MagCode} (hd : d.toNat ≤ 126) (hsucc : d.toNat = c.toNat + 1)
    (hmid : magWordValue m = (magCodeValue c + magCodeValue d) / 2) :
    (rnd m).c = if c.getLsbD 0 = false then c else d := by
  have hlt : magCodeValue c < magCodeValue d := magCodeValue_lt_iff.mpr (by omega)
  have hdist : |magCodeValue c - magWordValue m| = |magCodeValue d - magWordValue m| :=
    abs_eq_abs.mpr (.inr (by linarith))
  have hnear := rnd_nearest m hd
  rw [abs_of_nonneg (a := magCodeValue d - magWordValue m) (by linarith), abs_le] at hnear
  have hge : c.toNat ≤ (rnd m).c.toNat := magCodeValue_le_iff.mp (by linarith [hnear.1])
  have hle : (rnd m).c.toNat ≤ d.toNat := magCodeValue_le_iff.mp (by linarith [hnear.2])
  have hne : c ≠ d := by
    rintro rfl
    omega
  obtain hc | hc : (rnd m).c = c ∨ (rnd m).c = d := by
    rw [← BitVec.toNat_inj, ← BitVec.toNat_inj]
    omega
  · have heven := rnd_c_even_of_tie (m := m) (d := d) (by rw [hc]; exact hne.symm) (by rw [hc, hdist])
    rw [hc] at heven ⊢
    rw [if_pos heven]
  · have heven := rnd_c_even_of_tie (m := m) (d := c) (by rwa [hc]) (by rw [hc, hdist])
    obtain ⟨-, hdodd⟩ | ⟨hcodd, -⟩ := parity_alternates hsucc
    · rw [hc, hdodd] at heven
      exact absurd heven (by decide)
    · rw [hc, if_neg (by simp [hcodd])]

/-- The magnitude is the midpoint of neighbouring codes exactly where the lower one is the bracket's and half the gap
remains. -/
theorem RoundBracket.midpoint_iff {E F q r half h : Nat} (hb : RoundBracket E F q r half h) (n : Nat) :
    2 * magWordUnits E F = magCodeUnits n + magCodeUnits (n + 1) ↔ n = q ∧ r = half := by
  obtain ⟨hpos, hbelow, hvalue, hgap, -⟩ := hb
  have hsucc : magCodeUnits n < magCodeUnits (n + 1) := magCodeUnits_lt_succ n
  have hin : r * h < 2 * half * h := Nat.mul_lt_mul_of_pos_right hbelow hpos
  rcases lt_trichotomy n q with hn | rfl | hn
  · have hle : magCodeUnits (n + 1) ≤ magCodeUnits q := magCodeUnits_strictMono.monotone hn
    omega
  · have heq : r * h = half * h ↔ r = half := Nat.mul_left_inj hpos.ne'
    rw [Nat.mul_assoc] at hgap
    rw [hvalue, hgap]
    omega
  · have hle : magCodeUnits (q + 1) ≤ magCodeUnits n := magCodeUnits_strictMono.monotone hn
    omega

/-- Midpoints of neighbouring codes are midpoints in steps of 2^-149. -/
theorem midpoint_iff_units {m : MagWord} {c d : MagCode} (hsucc : d.toNat = c.toNat + 1) :
    magWordValue m = (magCodeValue c + magCodeValue d) / 2 ↔
      2 * magWordUnits (magExp m).toNat (magFrac m).toNat = magCodeUnits c.toNat + magCodeUnits (c.toNat + 1) := by
  rw [magWordValue_eq_units, magCodeValue_eq_units, magCodeValue_eq_units, hsucc, ← add_div, div_right_comm,
    div_left_inj' (by positivity), eq_div_iff (by norm_num), mul_comm]
  exact_mod_cast Iff.rfl

/-- The bits G = 1 and S = 0 of the normal arm, as the low 20 bits of the word. -/
theorem guard_without_sticky_iff (m : MagWord) :
    m.getLsbD 19 = true ∧ m.extractLsb' 0 19 = 0#19 ↔ (magFrac m).toNat % 2 ^ 20 = 2 ^ 19 := by
  rw [BitVec.getLsbD, Nat.testBit_eq_decide_div_mod_eq, decide_eq_true_iff, ← BitVec.toNat_inj, toNat_slice,
    BitVec.toNat_ofNat, magFrac_toNat]
  omega

/-- In the normal arm up to 464 the midpoints of codes up to 0x7F are the words with G = 1 and S = 0. -/
theorem exists_midpoint_iff_guard {m : MagWord} (hE : 121 ≤ (magExp m).toNat) (hle : magWordValue m ≤ 464) :
    (∃ c d : MagCode, d.toNat = c.toNat + 1 ∧ magWordValue m = (magCodeValue c + magCodeValue d) / 2) ↔
      m.getLsbD 19 = true ∧ m.extractLsb' 0 19 = 0#19 := by
  have hb := rnd_bracket_normal hE (magFrac m).isLt
  rw [guard_without_sticky_iff]
  constructor
  · rintro ⟨c, d, hsucc, hmid⟩
    exact ((hb.midpoint_iff c.toNat).mp ((midpoint_iff_units hsucc).mp hmid)).2
  · intro hhalf
    have hcode := (rnd_ovf_iff_code m).not.mp ((rnd_ovf_iff_value m).not.mpr hle.not_gt)
    rw [hb.code] at hcode
    obtain ⟨q, hq⟩ : ∃ q, 8 * ((magExp m).toNat - 120) + (magFrac m).toNat / 2 ^ 20 = q := ⟨_, rfl⟩
    rw [hq] at hb hcode
    have hc : (BitVec.ofNat 7 q).toNat = q := by rw [BitVec.toNat_ofNat]; omega
    have hd : (BitVec.ofNat 7 (q + 1)).toNat = q + 1 := by rw [BitVec.toNat_ofNat]; omega
    have hsucc : (BitVec.ofNat 7 (q + 1)).toNat = (BitVec.ofNat 7 q).toNat + 1 := by rw [hc, hd]
    exact ⟨_, _, hsucc, (midpoint_iff_units hsucc).mpr ((hb.midpoint_iff _).mpr ⟨hc, hhalf⟩)⟩

/-- 464 is the midpoint of 0x7E and 0x7F, so the ties of R143 are the midpoints of codes up to 0x7F. -/
theorem tie_iff_exists_midpoint (x : ℚ) :
    ((∃ c d : MagCode, d ≤ 0x7E#7 ∧ d.toNat = c.toNat + 1 ∧ x = (magCodeValue c + magCodeValue d) / 2) ∨ x = 464) ↔
      ∃ c d : MagCode, d.toNat = c.toNat + 1 ∧ x = (magCodeValue c + magCodeValue d) / 2 := by
  have h464 : (464 : ℚ) = (magCodeValue 0x7E#7 + magCodeValue 0x7F#7) / 2 := by
    rw [magCodeValue_0x7E, magCodeValue_0x7F]
    norm_num
  constructor
  · rintro (⟨c, d, -, hsucc, hmid⟩ | h)
    · exact ⟨c, d, hsucc, hmid⟩
    · exact ⟨0x7E#7, 0x7F#7, rfl, h.trans h464⟩
  · rintro ⟨c, d, hsucc, hmid⟩
    by_cases hd : d ≤ 0x7E#7
    · exact .inl ⟨c, d, hd, hsucc, hmid⟩
    · have hdlt := d.isLt
      rw [BitVec.le_def, BitVec.toNat_ofNat] at hd
      obtain rfl : d = 0x7F#7 := BitVec.eq_of_toNat_eq (by rw [BitVec.toNat_ofNat]; omega)
      obtain rfl : c = 0x7E#7 := BitVec.eq_of_toNat_eq (by rw [BitVec.toNat_ofNat] at hsucc ⊢; omega)
      exact .inr (hmid.trans h464.symm)

/-- Settles O17: RND at a midpoint is the even neighbour, and in the normal arm a midpoint is half a gap past a code. -/
theorem roundTies : Obligations.RoundTies := by
  refine ⟨fun m c d _ hd hsucc hmid => ?_, fun m _ h464 => ?_, fun m hE _ hle => ?_⟩
  · have hc : magCodeValue c < magCodeValue d := magCodeValue_lt_iff.mpr (by omega)
    have h448 : magCodeValue d ≤ magCodeValue 0x7E#7 := magCodeValue_le_iff.mpr (BitVec.le_def.mp hd)
    rw [magCodeValue_0x7E] at h448
    exact ⟨(rnd_ovf_eq_false_iff_value m).mpr (by linarith), rnd_c_of_midpoint (BitVec.le_def.mp hd) hsucc hmid⟩
  · exact ⟨(rnd_ovf_eq_false_iff_value m).mpr h464.le, rnd_c_of_above_max (by linarith)⟩
  · rw [tie_iff_exists_midpoint]
    exact exists_midpoint_iff_guard (BitVec.le_def.mp hE) hle

/-! ### The widths of the datapath (R146) -/

/-- The increment of round-to-nearest-even is 0 or 1. -/
theorem roundUp_cases (q g : Nat) (sticky : Bool) : roundUp q g sticky = q ∨ roundUp q g sticky = q + 1 := by
  unfold roundUp
  split
  · exact .inr rfl
  · exact .inl rfl

theorem rndC0_eq {E F : Nat} (hF : F < 2 ^ 23) : rndC0 E F = 8 * (E - 120) + F / 2 ^ 20 := by
  unfold rndC0 natCat natSlice
  omega

theorem rndC1_cases (E F : Nat) : rndC1 E F = rndC0 E F ∨ rndC1 E F = rndC0 E F + 1 :=
  roundUp_cases _ _ _

theorem rndM_lt (E : Nat) {F : Nat} (hF : F < 2 ^ 23) : rndM E F < 2 ^ 24 := by
  unfold rndM
  split <;> omega

theorem rndK_range {E : Nat} (hE : E ≤ 120) : 21 ≤ rndK E ∧ rndK E ≤ 140 := by
  unfold rndK
  omega

/-- The quotient of the subnormal arm has three bits: a 24-bit significand is shifted by at least 21. -/
theorem rndQ_le {E F : Nat} (hE : E ≤ 120) (hF : F < 2 ^ 23) : rndQ E F ≤ 7 := by
  have hM := rndM_lt E hF
  obtain ⟨hk, -⟩ := rndK_range hE
  have hdiv : rndM E F / 2 ^ rndK E ≤ rndM E F / 2 ^ 21 :=
    Nat.div_le_div_left (Nat.pow_le_pow_right (by omega) hk) (by positivity)
  rw [rndQ, Nat.shiftRight_eq_div_pow]
  omega

theorem codeExp_range_of_normal {b : Code} (h : codeClass b = .normal) :
    1 ≤ (codeExp b).toNat ∧ (codeExp b).toNat ≤ 15 := by
  obtain ⟨he, -⟩ := (codeClass_eq_normal_iff b).mp h
  exact ⟨BitVec.le_def.mp ((one_le_codeExp_iff b).mpr he), Nat.le_of_lt_succ (codeExp b).isLt⟩

/-- Settles O19, one range after the other. -/
theorem datapathWidths : Obligations.DatapathWidths := by
  refine ⟨fun E F h121 h135 hF => ?_, fun E F hE hF => ?_, fun b hb => ?_, fun b _ => ?_⟩
  · have hc0 := rndC0_eq (E := E) hF
    have hc1 := rndC1_cases E F
    omega
  · exact ⟨Nat.le_pred_of_lt (rndM_lt E hF), rndK_range hE, rndQ_le hE hF, rndSubC_le hE hF, roundUp_cases _ _ _⟩
  · have hexp := codeExp_range_of_normal hb
    omega
  · have hp := msbIndex_le_two (codeMan b)
    omega

/-! ### The low fraction bits as one sticky bit (R140) -/

/-- The normal arm's code reads F[22:19] and whether F[18:0] is zero. -/
theorem rndC1_congr (E : Nat) {F F' : Nat} (htop : F / 2 ^ 19 = F' / 2 ^ 19)
    (hlow : F % 2 ^ 19 = 0 ↔ F' % 2 ^ 19 = 0) : rndC1 E F = rndC1 E F' := by
  have hc0 : rndC0 E F = rndC0 E F' := by
    unfold rndC0 natSlice
    rw [show F / 2 ^ 20 = F' / 2 ^ 20 by omega]
  have hguard : rndGuard F = rndGuard F' := by
    unfold rndGuard natBit
    rw [htop]
  have hsticky : rndSticky F = rndSticky F' := by
    simp only [rndSticky, natSlice, pow_zero, Nat.div_one, bne, beq_eq_decide, hlow]
  rw [rndC1, rndC1, hc0, hguard, hsticky]

/-- The word of 448 has no bit below bit 19, so `big` reads the bits below it only as sticky. -/
theorem rndBig_congr {m n : MagWord} (htop : m.toNat / 2 ^ 19 = n.toNat / 2 ^ 19)
    (hlow : m.toNat % 2 ^ 19 = 0 ↔ n.toNat % 2 ^ 19 = 0) : rndBig m = rndBig n := by
  rw [rndBig, rndBig, decide_eq_decide, BitVec.lt_def, BitVec.lt_def, BitVec.toNat_ofNat]
  omega

/-- From exponent field 121 on RND reads the bits below bit 19 only as sticky. -/
theorem rnd_congr {m n : MagWord} (hE : 121 ≤ (magExp m).toNat) (htop : m.toNat / 2 ^ 19 = n.toNat / 2 ^ 19)
    (hlow : m.toNat % 2 ^ 19 = 0 ↔ n.toNat % 2 ^ 19 = 0) : rnd m = rnd n := by
  have hexp : (magExp m).toNat = (magExp n).toNat := by
    rw [magExp_toNat, magExp_toNat]
    omega
  have hbig := rndBig_congr htop hlow
  by_cases hlarge : 136 ≤ (magExp m).toNat
  · rw [rnd_of_large hlarge, rnd_of_large (hexp ▸ hlarge), hbig]
  · have hcode : rndCode (magExp m).toNat (magFrac m).toNat = rndCode (magExp n).toNat (magFrac n).toNat := by
      rw [← hexp, rndCode, rndCode, if_pos hE, if_pos hE]
      refine rndC1_congr _ ?_ ?_ <;> rw [magFrac_toNat, magFrac_toNat] <;> omega
    rw [rnd_of_small (by omega), rnd_of_small (by omega), hcode, hbig]

/-- Settles O27: RND of both magnitudes is the same, `big` included, and ENC reads nothing else but the sign. -/
theorem encodeReadsOneStickyBit : Obligations.EncodeReadsOneStickyBit := by
  intro cfg w v hsign hexp h121 h135 hfrac hzero
  have hE : 121 ≤ (wordExp w).toNat := BitVec.le_def.mp h121
  have hE' : (wordExp w).toNat ≤ 135 := BitVec.le_def.mp h135
  have hfin : wordIsFinite w = true := (wordIsFinite_iff w).mpr (by omega)
  have hfin' : wordIsFinite v = true := (wordIsFinite_iff v).mpr (by rw [← hexp]; omega)
  have hrnd : rnd (wordMag w) = rnd (wordMag v) := by
    rw [← BitVec.toNat_inj, wordExp_toNat, wordExp_toNat] at hexp
    rw [← BitVec.toNat_inj, toNat_slice, toNat_slice] at hfrac
    rw [← BitVec.toNat_inj, ← BitVec.toNat_inj, toNat_slice, toNat_slice, BitVec.toNat_ofNat] at hzero
    refine rnd_congr (by rwa [magExp_wordMag]) ?_ ?_ <;> rw [wordMag_toNat, wordMag_toNat] <;> omega
  rw [enc_of_finite cfg hfin, enc_of_finite cfg hfin', encFinite_eq, encFinite_eq, hrnd, hsign]

/-! ### Exponent field 255 (R145) -/

/-- Settles O18: RND's arm from 136 on, and ENC's branches for NaN and infinity. -/
theorem roundExponent255 : Obligations.RoundExponent255 := by
  refine ⟨fun m hE => ?_, fun cfg w hE => ?_⟩
  · have hlarge := rnd_of_large (mag := m) (by rw [hE]; decide)
    have hovf : (rnd m).ovf = true := by rw [hlarge]
    exact ⟨by rw [hlarge]; rfl, hovf, rnd_big_of_ovf hovf⟩
  · by_cases hF : wordFrac w = 0#23
    · rw [if_pos hF, enc_of_inf cfg (by simp [wordIsInf, hE, hF])]
    · rw [if_neg hF, enc_of_nan cfg (by simp [wordIsNaN, hE, hF])]

end Sys2Proof.Machine

/-! The family of spec/60_exceptions.md: which of its three outcomes a step has (R206), and the runs in which the host
keeps its duty (R200, R207, R234). -/

namespace Sys2Proof.Machine

/-! ### The outcomes of a step (R206, R234) -/

theorem legal_iff (cfg : Config) :
    cfg.legal = true ↔ wordIsNaN cfg.decNanPos = true ∧ wordIsNaN cfg.decNanNeg = true := by
  rw [Config.legal, Bool.and_eq_true]

/-- The host's duty is broken by a read of a port that shows no value. -/
theorem not_readsAValue_iff (s : State) :
    ¬ ReadsAValue s ↔ s.port.readY = true ∧ (responseNow s).y = none := by
  rw [ReadsAValue, Classical.not_imp, Option.not_isSome_iff_eq_none]

theorem step_refused_iff (s : State) : (∃ r, step s = .refused r) ↔ s.cfg.legal = false := by
  refine ⟨fun ⟨r, hr⟩ => ?_, fun hl => ⟨_, step_of_illegal hl⟩⟩
  rcases step_cases s with ⟨hl, -⟩ | ⟨-, -, -, hfault⟩ | ⟨-, hnext⟩
  · exact hl
  · cases hfault.symm.trans hr
  · cases hnext.symm.trans hr

theorem step_fault_iff (s : State) : (∃ f, step s = .fault f) ↔ s.cfg.legal = true ∧ ¬ ReadsAValue s := by
  rw [not_readsAValue_iff]
  refine ⟨fun ⟨f, hf⟩ => ?_, fun ⟨hl, hread, hnone⟩ => ⟨_, step_of_bad_read hl hread hnone⟩⟩
  rcases step_cases s with ⟨-, hrefused⟩ | ⟨hl, hread, hnone, -⟩ | ⟨-, hnext⟩
  · cases hrefused.symm.trans hf
  · exact ⟨hl, hread, hnone⟩
  · cases hnext.symm.trans hf

theorem step_next_iff (s : State) : (∃ t, step s = .next t) ↔ SafeCycle s :=
  ⟨fun ⟨_, ht⟩ => (step_next ht).1, fun hs => ⟨_, step_of_safe hs⟩⟩

/-- The port shows no value exactly when there is a register and the last one is not valid (R25, R69, R206). -/
theorem responseNow_y_eq_none_iff {s : State} (hlen : PipeLength s) :
    (responseNow s).y = none ↔
      ∃ (rest : List Stage) (last : Stage), s.pipe = rest ++ [last] ∧ last.valid = false := by
  rw [← Option.not_isSome_iff_eq_none, responseNow, portOut_isSome, ← hlen, List.length_eq_zero_iff, not_or,
    Bool.not_eq_true]
  constructor
  · rintro ⟨hne, hinvalid⟩
    obtain ⟨rest, last, hpipe⟩ := (List.eq_nil_or_concat' s.pipe).resolve_left hne
    exact ⟨rest, last, hpipe, by rwa [lastStage_append hpipe] at hinvalid⟩
  · rintro ⟨rest, last, hpipe, hinvalid⟩
    exact ⟨by simp [hpipe], by rwa [lastStage_append hpipe]⟩

/-- Settles O33: `step_cases` leaves three outcomes, and the pipeline says when the port shows no value. -/
theorem stepOutcomes : Obligations.StepOutcomes := by
  intro s hlen
  refine ⟨?_, ?_, step_next_iff s⟩
  · rw [step_refused_iff, ← legal_iff, Bool.not_eq_true]
  · rw [step_fault_iff, not_readsAValue_iff, responseNow_y_eq_none_iff hlen]

/-! ### Safe runs (R200, R207, R234) -/

/-- A safe run is a safe cycle and a safe run from the one state the cycle leads to. -/
theorem safeRun_succ_iff (n : Nat) (s : State) :
    SafeRun (n + 1) s ↔ SafeCycle s ∧ SafeRun n (nextInputs (edgeState s)) := by
  rw [SafeRun]
  refine and_congr_right fun hs => ?_
  simp [step_of_safe hs]

theorem runCycles_of_safeRun {n : Nat} : ∀ {s : State}, SafeRun n s → ∃ t, runCycles n s = .next t := by
  induction n with
  | zero => exact fun {s} _ => ⟨s, runCycles_zero s⟩
  | succ n ih =>
    intro s hsafe
    obtain ⟨hcycle, hrest⟩ := (safeRun_succ_iff n s).mp hsafe
    rw [runCycles_succ (step_of_safe hcycle)]
    exact ih hrest

/-- With `LATENCY` = 0 every cycle is safe, and the parameters stay (R24, R69). -/
theorem safeRun_of_combinational (n : Nat) :
    ∀ {s : State}, s.cfg.legal = true → s.cfg.latency = 0 → SafeRun n s := by
  induction n with
  | zero => exact fun _ _ => trivial
  | succ n ih =>
    intro s hl h0
    exact (safeRun_succ_iff n s).mpr
      ⟨safeCycle_of_combinational hl h0, ih (by simpa using hl) (by simpa using h0)⟩

theorem safeRun_of_no_read {n : Nat} :
    ∀ {s : State}, s.cfg.legal = true → (∀ p ∈ pinsOver n s, p.readY = false) → SafeRun n s := by
  induction n with
  | zero => exact fun _ _ => trivial
  | succ n ih =>
    intro s hl hpins
    obtain ⟨hnow, hlater⟩ := List.forall_mem_cons.mp hpins
    rw [← pinsOver_next] at hlater
    exact (safeRun_succ_iff n s).mpr ⟨safeCycle_of_no_read hl hnow, ih (by simpa using hl) hlater⟩

/-- Settles O43, each clause by induction on the number of cycles. -/
theorem safeRunCompletes : Obligations.SafeRunCompletes :=
  ⟨fun _ _ => runCycles_of_safeRun, fun n _ => safeRun_of_combinational n, fun _ _ => safeRun_of_no_read⟩

end Sys2Proof.Machine

/-! The family of spec/70_reset_and_hazards.md: the reset edge (R230), and the response `LATENCY` cycles after its request
(R231). -/

namespace Sys2Proof.Machine

/-! ### The reset edge (R35, R230) -/

/-- Where there is a reset input, `rst` acts. -/
theorem resetActive_of_rst_high {s : State} (hrst : s.port.rst = true) (hlat : 0 < s.cfg.latency) :
    resetActive s = true := by
  simp [resetActive, hrst, hlat]

theorem runCycle_of_reset {s : State} (hl : s.cfg.legal = true) (hrst : s.port.rst = true) (hlat : 0 < s.cfg.latency) :
    runCycle s = .next (resetEdgeState s) := by
  rw [runCycle_eq, underLegalConfig_of_legal _ hl, edgeState_of_reset (resetActive_of_rst_high hrst hlat)]

/-- Whatever was in flight, a reset edge establishes the invariant: it leaves `LATENCY` stages and none valid. -/
theorem inv_resetEdgeState {s : State} (hl : s.cfg.legal = true) : Inv (resetEdgeState s) where
  legal := hl
  length := clearedStages_length s.cfg.latency s.freeCtr
  results := by
    intro st hst hv
    rw [resetEdgeState_pipe] at hst
    rw [clearedStages_invalid hst] at hv
    cases hv

/-- With `LATENCY` = 0 every cycle is a shift, whatever the level of `rst`. -/
theorem runCycle_of_combinational {s : State} (h0 : s.cfg.latency = 0) :
    runCycle s = underLegalConfig s (shiftEdge s (stageOf s.cfg s.port)) := by
  rw [runCycle_eq, edgeState_of_no_reset (resetActive_of_rst_low_or_combinational (.inr h0))]

/-- With `LATENCY` = 0 a cycle under another level of `rst` leaves the same state, but for that level on the port. -/
theorem runCycle_set_rst {s t : State} (b : Bool) (h0 : s.cfg.latency = 0) (h : runCycle s = .next t) :
    runCycle { s with port := { s.port with rst := b } } = .next { t with port := { t.port with rst := b } } := by
  rw [runCycle_of_combinational h0, underLegalConfig_eq_next] at h
  obtain ⟨hl, rfl⟩ := h
  have hcycle := runCycle_of_combinational (s := { s with port := { s.port with rst := b } }) h0
  exact hcycle.trans (underLegalConfig_of_legal _ hl)

/-- Settles O35: with registers the cycle ends in the cleared stages, whatever stood there; without, `rst` is not read. -/
theorem resetLeavesNothingValid : Obligations.ResetLeavesNothingValid := by
  refine ⟨fun s hl hrst hlat => ?_, fun s hl hrst hlat => ?_, fun s t b h0 h => runCycle_set_rst b h0 h⟩
  · exact ⟨_, runCycle_of_reset hl hrst hlat, clearedStages_length _ _, fun _ hst => clearedStages_invalid hst,
      rfl, rfl, rfl, rfl, inv_resetEdgeState hl⟩
  · exact ⟨_, runCycle_of_reset (s := s.powerCycle) hl hrst hlat, inv_resetEdgeState (s := s.powerCycle) hl⟩

/-! ### The response to a request (R207, R231) -/

/-- Settles O40: the request's stage is valid, and each cycle before the last moves it one place on. -/
theorem responseAfterLatency : Obligations.ResponseAfterLatency :=
  fun _ hl hlen hv hpins => request_completes hl hlen hv hpins

end Sys2Proof.Machine
